-- ==== Sys2Proof/Word.lean ====
section
/-! DEFINITION. The word types of the engine (00_scope.md R8) and the five-word register group. -/

namespace Sys2Proof

/-- `word32` of 00_scope.md R8: an unsigned 32-bit word, bit 0 the least significant. -/
abbrev Word := BitVec 32

/-- `byte` of 00_scope.md R8. -/
abbrev Byte := BitVec 8

end Sys2Proof

namespace Sys2Proof.Machine

/-- Five 32-bit words: the shape of `H[0..4]`, `HIN[0..4]`, `DIGEST[0..4]` (10_state.md R20) and of the
compression function's input and result (44_compression.md R175). -/
structure Words5 where
  w0 : Word
  w1 : Word
  w2 : Word
  w3 : Word
  w4 : Word
deriving DecidableEq, Repr

end Sys2Proof.Machine
end

