-- ==== Sys2Proof/Config.lean ====
section
/-! DEFINITION. What an implementation fixes, and the free values: no proof can see what an opaque constant is. -/

namespace Sys2Proof.Machine

/-- Which draw of an unspecified value it is: the engine instance that is read, and how many such reads of it went
before (log 2). No two reads of one platform have the same. -/
structure DrawKey where
  unit : Nat
  count : Nat
deriving DecidableEq, Repr

end Sys2Proof.Machine

namespace Sys2Proof

/-- The identification value of 10_state.md R33. -/
def Config.idValue : Word := 0x53484131#32

/-- The size of the register window in bytes (20_memory.md R51). -/
def Config.windowSize : Nat := 0x80

/-- FREE VALUE (log 2): what the read of TOTAL_LO, TOTAL_HI, DIGESTn or HEXj with this key, made while BUSY = 1, returns
(70_reset_and_hazards.md R247: an unspecified value of 32 bits, a draw independent of every other read). -/
opaque Config.freeWord : Machine.DrawKey → Word

/-- FREE VALUE (log 2): what the TAIL_LEN field holds in the read of STATUS with this key, made while BUSY = 1
(70_reset_and_hazards.md R247: an unspecified value in 0..63, a draw independent of every other read). -/
opaque Config.freeTailLen : Machine.DrawKey → BitVec 6

end Sys2Proof
end

