-- ==== Sys2Proof/Syntax.lean ====
section
/-! DEFINITION. The engine's instructions: the commands of the opcode map (30_encoding.md R72). -/

namespace Sys2Proof

/-- One constructor per row of the opcode table. No command has an operand of its own but UPDATE's byte count
(30_encoding.md R71): UPDATE's data and SETREG's values are latched from DATA_IN and HIN0..4 at acceptance. -/
inductive Instr where
  /-- NOP, 40_commands.md R103. -/
  | nop
  /-- INIT, 41_update.md R120. -/
  | init
  /-- UPDATE n, 41_update.md R121: `len` is the field LEN, bits 10:8 of the word. -/
  | update (len : BitVec 3)
  /-- FINALIZE, 42_finalize.md R140. -/
  | finalize
  /-- SETREG, 43_setreg.md R160. -/
  | setreg
deriving DecidableEq, Repr

end Sys2Proof
end

