-- ==== Sys2Proof/WellFormed.lean ====
section
/-! DEFINITION. Which instruction terms are commands of the engine (30_encoding.md R72). -/

namespace Sys2Proof

/-- A term is well formed when some word encodes it: UPDATE takes LEN = 0..4 bytes and no more (30_encoding.md
R72, R74: LEN = 5..7 on UPDATE is illegal). -/
def WellFormed (i : Instr) : Bool :=
  match i with
  | .nop => true
  | .init => true
  | .update len => len ≤ 4#3
  | .finalize => true
  | .setreg => true

end Sys2Proof
end

