-- ==== Sys2Proof/Decode.lean ====
section
/-! DEFINITION. The command decoder, total over every 32-bit word (30_encoding.md R73), and after it the encoder. -/

namespace Sys2Proof

/-- Why `decode` answers ILLEGAL (30_encoding.md R74). Whichever it is, a CMD write of the word raises ILLEGAL_CMD. -/
inductive Illegal where
  /-- RSV, bits 31:11, is not 0. -/
  | reservedBits
  /-- OPCODE is 0x05..0xFF. -/
  | unknownOpcode
  /-- LEN is not 0 on NOP, INIT, FINALIZE or SETREG. -/
  | lenNotZero
  /-- LEN is 5..7 on UPDATE. -/
  | lenTooLong
deriving DecidableEq, Repr

/-- What the decoder answers: a command, or ILLEGAL with the reason. -/
inductive Decoded where
  | legal (i : Instr)
  | illegal (why : Illegal)
deriving DecidableEq, Repr

/-- RSV, bits 31:11 of a command word (30_encoding.md R70). -/
def rsvOf (c : Word) : BitVec 21 := c.extractLsb' 11 21

/-- LEN, bits 10:8 of a command word (30_encoding.md R70). -/
def lenOf (c : Word) : BitVec 3 := c.extractLsb' 8 3

/-- OPCODE, bits 7:0 of a command word (30_encoding.md R70). -/
def opcodeOf (c : Word) : BitVec 8 := c.extractLsb' 0 8

/-- A command whose LEN must be 0 (30_encoding.md R73). -/
def decodeLenZero (len : BitVec 3) (i : Instr) : Decoded :=
  if len = 0#3 then .legal i else .illegal .lenNotZero

/-- `decode` of 30_encoding.md R73. -/
def decode (c : Word) : Decoded :=
  if rsvOf c ≠ 0#21 then .illegal .reservedBits
  else if opcodeOf c = 0x00#8 then decodeLenZero (lenOf c) .nop
  else if opcodeOf c = 0x01#8 then decodeLenZero (lenOf c) .init
  else if opcodeOf c = 0x02#8 then
    if lenOf c ≤ 4#3 then .legal (.update (lenOf c)) else .illegal .lenTooLong
  else if opcodeOf c = 0x03#8 then decodeLenZero (lenOf c) .finalize
  else if opcodeOf c = 0x04#8 then decodeLenZero (lenOf c) .setreg
  else .illegal .unknownOpcode

/-- The command word of an instruction, from the table of 30_encoding.md R72: `{RSV = 0, LEN, OPCODE}`. -/
def encode (i : Instr) : Word :=
  match i with
  | .nop => 0x00000000#32
  | .init => 0x00000001#32
  | .update len => 0x00000002#32 ||| (len.setWidth 32 <<< 8)
  | .finalize => 0x00000003#32
  | .setreg => 0x00000004#32

/-- The instruction the decoder reads from the command word `w` of `nbits` bits, numbered as the opcode table numbers
them. A command is exactly one 32-bit word delivered whole by one CMD write (30_encoding.md R75, 20_memory.md R54), so
there are no bytes to lay out; a number that does not fit the word is no command word (log 10). -/
def decodeTableWord (nbits w : Nat) : Option Instr :=
  if nbits ≤ 32 ∧ w < 2 ^ nbits then
    match decode (BitVec.ofNat 32 w) with
    | .legal i => some i
    | .illegal _ => none
  else none

end Sys2Proof
end

