-- ==== Sys2Proof/Machine/Bytes.lean ====
section
/-! DEFINITION. Rotation and the big-endian byte sequences of 00_scope.md R9 and R10. -/

namespace Sys2Proof.Machine

/-- `rotl(x, n)` of 00_scope.md R9, used with n = 1, 5 and 30 (44_compression.md R176). -/
def rotl (x : Word) (n : Nat) : Word := (x <<< n) ||| (x >>> (32 - n))

/-- `be32` of 00_scope.md R10: the first byte in bits 31:24. -/
def be32 (b0 b1 b2 b3 : Byte) : Word := b0 ++ b1 ++ b2 ++ b3

/-- `be32bytes` of 00_scope.md R10, the inverse of `be32`. -/
def be32bytes (w : Word) : List Byte :=
  [w.extractLsb' 24 8, w.extractLsb' 16 8, w.extractLsb' 8 8, w.extractLsb' 0 8]

/-- `be64bytes` of 00_scope.md R10: 8 bytes, the most significant first. -/
def be64bytes (v : BitVec 64) : List Byte :=
  be32bytes (v.extractLsb' 32 32) ++ be32bytes (v.extractLsb' 0 32)

/-- A byte sequence as big-endian words, four bytes each (44_compression.md R170); a last group of fewer than four
bytes, which no block has, gives no word. -/
def wordsOf : List Byte → List Word
  | b0 :: b1 :: b2 :: b3 :: rest => be32 b0 b1 b2 b3 :: wordsOf rest
  | _ => []

/-- The 64-byte blocks of a byte sequence, in order: `m[64j .. 64j+64)` for `j` below `len(m) / 64`
(42_finalize.md R140). -/
def blocksOf (m : List Byte) : List (List Byte) :=
  (List.range (m.length / 64)).map fun j => (m.drop (64 * j)).take 64

/-- The 20 bytes of five words, most significant byte first (10_state.md R39, 20_memory.md R52(c)). -/
def bytesOf5 (x : Words5) : List Byte :=
  be32bytes x.w0 ++ be32bytes x.w1 ++ be32bytes x.w2 ++ be32bytes x.w3 ++ be32bytes x.w4

end Sys2Proof.Machine
end

