-- ==== Sys2Proof/Machine/Compression.lean ====
section
/-! DEFINITION. The compression engine and the message-schedule expander (44_compression.md): a pure, total function
of five words and one 64-byte block. Everything in it is transient (10_state.md R42). -/

namespace Sys2Proof.Machine

/-- The initial hash value of 10_state.md R24, loaded into H by reset and by INIT. -/
def iv : Words5 := ⟨0x67452301#32, 0xEFCDAB89#32, 0x98BADCFE#32, 0x10325476#32, 0xC3D2E1F0#32⟩

/-- The next schedule word from the words so far, the NEWEST FIRST: `w[t-3]`, `w[t-8]`, `w[t-14]`, `w[t-16]` stand at
places 2, 7, 13 and 15 (44_compression.md R171). -/
def nextScheduleWord (newestFirst : List Word) : Word :=
  rotl (newestFirst.getD 2 0 ^^^ newestFirst.getD 7 0 ^^^ newestFirst.getD 13 0 ^^^ newestFirst.getD 15 0) 1

/-- `n` more schedule words, in front of the words so far (newest first), in increasing t (44_compression.md R171). -/
def expandSchedule : Nat → List Word → List Word
  | 0, ws => ws
  | n + 1, ws => expandSchedule n (nextScheduleWord ws :: ws)

/-- The message schedule `w[0..79]` of a block: its 16 big-endian words and 64 expanded ones (44_compression.md R170,
R171). -/
def messageSchedule (block : List Byte) : List Word :=
  (expandSchedule 64 (wordsOf block).reverse).reverse

/-- The working variables a, b, c, d, e (44_compression.md R172). -/
structure Vars where
  a : Word
  b : Word
  c : Word
  d : Word
  e : Word
deriving DecidableEq, Repr

/-- The round function's value and the round constant, `round_fk(i, b, c, d)` (44_compression.md R173). -/
def roundFK (i : Nat) (b c d : Word) : Word × Word :=
  if i ≤ 19 then (d ^^^ (b &&& (c ^^^ d)), 0x5A827999#32)
  else if i ≤ 39 then (b ^^^ c ^^^ d, 0x6ED9EBA1#32)
  else if i ≤ 59 then ((b &&& c) ||| (b &&& d) ||| (c &&& d), 0x8F1BBCDC#32)
  else (b ^^^ c ^^^ d, 0xCA62C1D6#32)

/-- Round `i` with schedule word `w`, the right side using the old values (44_compression.md R174). -/
def roundStep (i : Nat) (w : Word) (v : Vars) : Vars :=
  let fk := roundFK i v.b v.c v.d
  ⟨rotl v.a 5 + fk.1 + v.e + fk.2 + w, v.a, rotl v.b 30, v.c, v.d⟩

/-- The rounds from round `i` on, one for each schedule word left, in increasing i (44_compression.md R174). -/
def runRounds : Nat → List Word → Vars → Vars
  | _, [], v => v
  | i, w :: ws, v => runRounds (i + 1) ws (roundStep i w v)

/-- The working variables at the start (44_compression.md R172). -/
def startVars (x : Words5) : Vars := ⟨x.w0, x.w1, x.w2, x.w3, x.w4⟩

/-- The feed-forward at the end (44_compression.md R175). -/
def feedForward (x : Words5) (v : Vars) : Words5 :=
  ⟨x.w0 + v.a, x.w1 + v.b, x.w2 + v.c, x.w3 + v.d, x.w4 + v.e⟩

/-- `compress(Hin, B)` (44_compression.md R175). -/
def compress (x : Words5) (block : List Byte) : Words5 :=
  feedForward x (runRounds 0 (messageSchedule block) (startVars x))

end Sys2Proof.Machine
end

