-- ==== Sys2Proof/Machine/State.lean ====
section
/-! DEFINITION. The state: one engine instance with all the elements of 10_state.md R20, the Hosts that access it, and
the order in which the agents move. Plain data. -/

namespace Sys2Proof.Machine

/-- The error codes of 60_exceptions.md R210 (NONE is the absence of one). -/
inductive ErrorCode where
  /-- 0x01, raised by acceptance (60_exceptions.md R212). -/
  | illegalCmd
  /-- 0x02, raised by acceptance (60_exceptions.md R214). -/
  | cmdWhileBusy
  /-- 0x03, raised by the bus check (60_exceptions.md R215). -/
  | invalidInputLength
  /-- 0x04, raised by the bus check and by a write to a read-only register (60_exceptions.md R216). -/
  | badAccess
deriving DecidableEq, Repr

/-- The size of a bus access in bytes: 1, 2 or 4 (45_bus_access.md R190). -/
inductive Size where
  | byte
  | half
  | word
deriving DecidableEq, Repr

/-- A bus access to the window (45_bus_access.md R190): `off` is the byte offset of the lowest byte accessed, 0..0x7F.
Of a write narrower than a word only the low bits of `v` are the Host's; no rule reads them, since such a write is
refused (20_memory.md R54, R56). -/
inductive Access where
  /-- `BusRead(off, n)`. -/
  | read (off : BitVec 7) (size : Size)
  /-- `BusWrite(off, n, v)`. -/
  | write (off : BitVec 7) (size : Size) (v : Word)
deriving DecidableEq, Repr

/-- One line of a Host program in its basic forms (30_encoding.md R76): a bus access, or WAIT. -/
inductive HostOp where
  /-- WR, RD, CMD and the sub-word accesses of a Host: one bus access. -/
  | access (a : Access)
  /-- WAIT: repeat RD STATUS until bit 0 (BUSY) reads 0. -/
  | wait
deriving DecidableEq, Repr

/-- A Host agent (20_memory.md R61): what it has still to issue, in its program order, and the values its reads
returned, the newest first. -/
structure HostAgent where
  program : List HostOp
  received : List Word
deriving DecidableEq, Repr

/-- The three kinds of agent (20_memory.md R61): a Host (numbered by its place in `State.hosts`), the Engine, Reset. -/
inductive Agent where
  | engine
  | host (k : Nat)
  | reset
deriving DecidableEq, Repr

/-- The latched command of 10_state.md R29, `{op, len, data, hin[0..4]}`: `cmd` is op and len together, decoded. -/
structure Pending where
  cmd : Instr
  data : Word
  hin : Words5
deriving DecidableEq, Repr

/-- One engine instance: exactly the elements of 10_state.md R20. -/
structure Engine where
  /-- `H[0..4]`, the hash register file. -/
  h : Words5
  /-- `TAIL[0..63]`, the buffered-tail storage. -/
  tail : Vector Byte 64
  /-- `TAIL_LEN`, 6 bits. -/
  tailLen : BitVec 6
  /-- `TOTAL`, the byte counter. -/
  total : BitVec 64
  /-- `DATA_IN`, UPDATE data staging. -/
  dataIn : Word
  /-- `HIN[0..4]`, SETREG value staging. -/
  hin : Words5
  /-- `PENDING`. -/
  pending : Option Pending
  /-- `BUSY`. -/
  busy : Bool
  /-- `DVALID`. -/
  dvalid : Bool
  /-- `ERR`, the sticky error flag. -/
  err : Bool
  /-- `ERRCODE`. -/
  errcode : BitVec 8
  /-- `DIGEST[0..4]`. -/
  digest : Words5
deriving DecidableEq, Repr

/-- Every element at its value of 10_state.md R43. TAIL is unspecified there and never read; the model holds zeros,
as 93_implementation_defined.md U2 allows (DESIGN CHOICE, log 1). -/
def Engine.reset : Engine where
  h := iv
  tail := Vector.replicate 64 0#8
  tailLen := 0#6
  total := 0#64
  dataIn := 0#32
  hin := ⟨0#32, 0#32, 0#32, 0#32, 0#32⟩
  pending := none
  busy := false
  dvalid := false
  err := false
  errcode := 0x00#8
  digest := ⟨0#32, 0#32, 0#32, 0#32, 0#32⟩

/-- Why the machine would stop with a fault: never. The engine has no traps and no error stops it (60_exceptions.md
R217, R218, R219), so there is no constructor. -/
inductive Fault where
deriving DecidableEq, Repr

/-- Why the machine would refuse an instruction. -/
inductive Refusal where
  /-- An instruction without a meaning would be rejected by exec's arm; every command of the table has its meaning, so
  nothing raises this. Safe. -/
  | notModelled (mnemonic : String)
deriving DecidableEq, Repr

/-- The whole state: the engine, the Hosts, and whose step comes next. -/
structure State where
  /-- The engine instance. -/
  engine : Engine
  /-- The Hosts that access the engine; a Host's number is its place here. -/
  hosts : List HostAgent
  /-- The MODEL's own: the agents whose steps come next, in order. Any interleaving of 20_memory.md R61 is some list
  (DESIGN CHOICE, log 4). -/
  schedule : List Agent
  /-- The MODEL's own: the key of the next unspecified value a read draws, which instance this is and how many such
  values its reads have drawn so far (70_reset_and_hazards.md R247, log 2). -/
  draws : DrawKey
deriving DecidableEq, Repr

/-- The machine right after reset: the engine as 10_state.md R43 says, no Host attached and nothing scheduled (log 4,
log 5). -/
def State.reset : State where
  engine := Engine.reset
  hosts := []
  schedule := []
  draws := ⟨0, 0⟩

end Sys2Proof.Machine
end

