-- ==== Sys2Proof/Machine/Operands.lean ====
section
/-! DEFINITION. The operands of a command: latched at acceptance, taken at performance (40_commands.md R101, R102). -/

namespace Sys2Proof.Machine

/-- What acceptance of `i` latches (40_commands.md R101): `data` and `hin` are copied for every opcode. -/
def Engine.latch (i : Instr) (e : Engine) : Pending := ⟨i, e.dataIn, e.hin⟩

/-- The `data` a performance uses: the latched one (40_commands.md R102). With nothing pending there is no such step;
the value acceptance would latch now stands there (DESIGN CHOICE, log 6). -/
def Engine.operandData (e : Engine) : Word :=
  match e.pending with
  | some p => p.data
  | none => e.dataIn

/-- The `hin` a performance uses: the latched one (40_commands.md R102). With nothing pending, as `operandData`
(DESIGN CHOICE, log 6). -/
def Engine.operandHin (e : Engine) : Words5 :=
  match e.pending with
  | some p => p.hin
  | none => e.hin

/-- The stream bytes of UPDATE n: byte k is `data[31-8k : 24-8k]` for k below n, byte 0 first (41_update.md R121). -/
def updateBytes (n : BitVec 3) (data : Word) : List Byte := (be32bytes data).take n.toNat

/-- Register i of five, i = 0..4. -/
def Words5.get (x : Words5) (i : Fin 5) : Word :=
  match i with
  | 0 => x.w0
  | 1 => x.w1
  | 2 => x.w2
  | 3 => x.w3
  | 4 => x.w4

/-- Write register i of five, i = 0..4. -/
def Words5.set (x : Words5) (i : Fin 5) (v : Word) : Words5 :=
  match i with
  | 0 => { x with w0 := v }
  | 1 => { x with w1 := v }
  | 2 => { x with w2 := v }
  | 3 => { x with w3 := v }
  | 4 => { x with w4 := v }

end Sys2Proof.Machine
end

