-- ==== Sys2Proof/Machine/Flags.lean ====
section
/-! DEFINITION. The flags BUSY, DVALID, ERR and the STATUS word (10_state.md R30, R31, R35). -/

namespace Sys2Proof.Machine

/-- `reg(STATUS) = {zext_10(0), TAIL_LEN[5:0], ERRCODE[7:0], zext_5(0), ERR, DVALID, BUSY}` (10_state.md R35). -/
def statusWord (tailLen : BitVec 6) (errcode : BitVec 8) (err dvalid busy : Bool) : Word :=
  0#10 ++ tailLen ++ errcode ++ 0#5 ++ BitVec.ofBool err ++ BitVec.ofBool dvalid ++ BitVec.ofBool busy

/-- DVALID after the acceptance of `i`: cleared by every command but NOP (10_state.md R30, 40_commands.md R101). -/
def dvalidAfterAccept (i : Instr) (dvalid : Bool) : Bool :=
  match i with
  | .nop => dvalid
  | .init => false
  | .update _ => false
  | .finalize => false
  | .setreg => false

/-- The value ERRCODE takes for each error (60_exceptions.md R210). -/
def errorCodeValue (c : ErrorCode) : BitVec 8 :=
  match c with
  | .illegalCmd => 0x01#8
  | .cmdWhileBusy => 0x02#8
  | .invalidInputLength => 0x03#8
  | .badAccess => 0x04#8

/-- STATUS bit 0, which WAIT tests (30_encoding.md R76). -/
def busyBit (status : Word) : Bool := status.getLsbD 0

/-- STATUS bit 2 of a written value, which clears the error record (45_bus_access.md R194). -/
def clearBit (v : Word) : Bool := v.getLsbD 2

end Sys2Proof.Machine
end

