-- ==== Sys2Proof/Machine/Padding.lean ====
section
/-! DEFINITION. The padding and finalization unit (42_finalize.md). -/

namespace Sys2Proof.Machine

/-- The encoded bit length `((T + len(t)) * 8) mod 2^64` (42_finalize.md R141). -/
def bitLength (t : List Byte) (total : BitVec 64) : BitVec 64 :=
  (total + BitVec.ofNat 64 t.length) * 8#64

/-- How many zero bytes the padding has: `(55 - len(t)) mod 64`, an integer remainder (42_finalize.md R141). -/
def zeroCount (t : List Byte) : Nat := ((55 - (t.length : Int)) % 64).toNat

/-- `pad(t, T)` of 42_finalize.md R141. -/
def pad (t : List Byte) (total : BitVec 64) : List Byte :=
  t ++ [0x80#8] ++ List.replicate (zeroCount t) 0#8 ++ be64bytes (bitLength t total)

/-- The digest of registers `x`, buffered tail `t` and byte count `total`: the blocks of the padded tail compressed in
order, starting from `x` (42_finalize.md R140). -/
def digestOf (x : Words5) (t : List Byte) (total : BitVec 64) : Words5 :=
  (blocksOf (pad t total)).foldl compress x

end Sys2Proof.Machine
end

