-- ==== Sys2Proof/Machine/Ops.lean ====
section
/-! DEFINITION. The named operations over the engine's registers: recording and clearing an error, accepting and
retiring a command, and the steps of INIT, UPDATE, FINALIZE and SETREG. -/

namespace Sys2Proof.Machine

/-- `raise Error(code)`, the engine's only exception mechanism: the first error since the last clear is kept, no
control is transferred (60_exceptions.md R211). -/
def Engine.raiseError (code : ErrorCode) (e : Engine) : Engine :=
  if e.err then e else { e with err := true, errcode := errorCodeValue code }

/-- The only return from an error: ERR <- 0, ERRCODE <- 0x00 (60_exceptions.md R219, 45_bus_access.md R194). -/
def Engine.clearError (e : Engine) : Engine := { e with err := false, errcode := 0x00#8 }

/-- `accept(d)`: latch the operands and mark the engine busy (40_commands.md R101). -/
def Engine.accept (i : Instr) (e : Engine) : Engine :=
  { e with pending := some (e.latch i), busy := true, dvalid := dvalidAfterAccept i e.dvalid }

/-- The end of every performance: PENDING <- none, BUSY <- 0 (40_commands.md R102). -/
def Engine.retire (e : Engine) : Engine := { e with pending := none, busy := false }

/-- The acceptance check of a checked CMD write of value `c`: busy before decode (40_commands.md R100). -/
def Engine.offerCommand (c : Word) (e : Engine) : Engine :=
  if e.busy then e.raiseError .cmdWhileBusy
  else match decode c with
    | .legal i => e.accept i
    | .illegal _ => e.raiseError .illegalCmd

/-- The meaningful bytes `TAIL[0..TAIL_LEN)`, the oldest first (10_state.md R25). -/
def Engine.tailBytes (e : Engine) : List Byte := e.tail.toList.take e.tailLen.toNat

/-- A fresh HashState: H <- IV, TAIL_LEN <- 0, TOTAL <- 0 (41_update.md R120). TAIL's bytes are not written. -/
def Engine.freshHashState (e : Engine) : Engine := { e with h := iv, tailLen := 0#6, total := 0#64 }

/-- `absorb()`: the full tail is folded into H, TOTAL advances by 64 modulo 2^64, TAIL_LEN <- 0 (41_update.md R122). -/
def Engine.absorb (e : Engine) : Engine :=
  { e with h := compress e.h e.tail.toList, total := e.total + 64#64, tailLen := 0#6 }

/-- One stream byte: TAIL[TAIL_LEN] <- b, TAIL_LEN <- TAIL_LEN + 1, and absorb when that makes 64 (41_update.md R121).
TAIL_LEN is 6 bits wide; the 64 it reaches for the instant before the absorb is never held (10_state.md R25). -/
def Engine.pushByte (e : Engine) (b : Byte) : Engine :=
  let stored : Engine := { e with tail := e.tail.set e.tailLen.toNat b e.tailLen.isLt }
  if e.tailLen.toNat + 1 = 64 then stored.absorb
  else { stored with tailLen := e.tailLen + 1#6 }

/-- Stream bytes in order, the first first (41_update.md R121). -/
def Engine.pushBytes (e : Engine) (bs : List Byte) : Engine := bs.foldl Engine.pushByte e

/-- The digest of the current HashState, on a temporary copy of H (42_finalize.md R140). -/
def Engine.currentDigest (e : Engine) : Words5 := digestOf e.h e.tailBytes e.total

/-- FINALIZE's writes: DIGEST0..4 and DVALID, nothing of the HashState (42_finalize.md R140, R143). -/
def Engine.storeDigest (e : Engine) : Engine := { e with digest := e.currentDigest, dvalid := true }

/-- Overwrite the hash register file with five values, none checked (43_setreg.md R160). -/
def Engine.loadHash (x : Words5) (e : Engine) : Engine := { e with h := x }

/-- Apply an operation to the engine; the Hosts, the schedule and the draw key stay. -/
def State.onEngine (f : Engine → Engine) (s : State) : State := { s with engine := f s.engine }

/-- A performance: the command's body, then retiring it, as one indivisible Engine step that always succeeds
(40_commands.md R102, 60_exceptions.md R217). -/
def State.perform (body : Engine → Engine) (s : State) : Host.Outcome State Fault Refusal :=
  .next (s.onEngine fun e => (body e).retire)

/-- Reset of the engine, an external event: every element at its reset value, a pending command abandoned
(70_reset_and_hazards.md R240). The Hosts, what is scheduled and the draw key are no part of the engine (log 8). -/
def State.resetEngine (s : State) : State := s.onEngine fun _ => Engine.reset

end Sys2Proof.Machine
end

