-- ==== Sys2Proof/Machine/Accumulator.lean ====
section
/-! DEFINITION. The incremental state accumulator: INIT and UPDATE (41_update.md). -/

namespace Sys2Proof.Machine

/-- INIT: a fresh HashState (41_update.md R120). DVALID was cleared at acceptance. -/
def execInit (s : State) : Host.Outcome State Fault Refusal :=
  s.perform Engine.freshHashState

/-- UPDATE n: append n bytes of the latched data to the stream, absorbing a full block (41_update.md R121, R122). -/
def execUpdate (len : BitVec 3) (s : State) : Host.Outcome State Fault Refusal :=
  s.perform fun e => e.pushBytes (updateBytes len e.operandData)

end Sys2Proof.Machine
end

