-- ==== Sys2Proof/Machine/Finalize.lean ====
section
/-! DEFINITION. FINALIZE (42_finalize.md). -/

namespace Sys2Proof.Machine

/-- FINALIZE: the digest of the current HashState into DIGEST0..4, DVALID <- 1 (42_finalize.md R140). -/
def execFinalize (s : State) : Host.Outcome State Fault Refusal :=
  s.perform Engine.storeDigest

end Sys2Proof.Machine
end

