-- ==== Sys2Proof/Machine/Nop.lean ====
section
/-! DEFINITION. NOP (40_commands.md). -/

namespace Sys2Proof.Machine

/-- NOP: nothing but retiring the command (40_commands.md R103, R102). -/
def execNop (s : State) : Host.Outcome State Fault Refusal :=
  s.perform id

end Sys2Proof.Machine
end

