-- ==== Sys2Proof/Machine/Setreg.lean ====
section
/-! DEFINITION. SETREG, the register-injection hook (43_setreg.md). -/

namespace Sys2Proof.Machine

/-- SETREG: H <- the latched HIN0..4; TOTAL, TAIL and TAIL_LEN stay (43_setreg.md R160, R161). -/
def execSetreg (s : State) : Host.Outcome State Fault Refusal :=
  s.perform fun e => e.loadHash e.operandHin

end Sys2Proof.Machine
end

