-- ==== Sys2Proof/Machine/Bus.lean ====
section
/-! DEFINITION. The register map (10_state.md R32 to R41) and the Host's bus accesses to the window
(45_bus_access.md). -/

namespace Sys2Proof.Machine

/-- The bus-visible registers of 10_state.md R32. -/
inductive Reg where
  | id
  | cmd
  | status
  | dataIn
  | hin (n : Fin 5)
  | totalLo
  | totalHi
  | digest (n : Fin 5)
  | hex (j : Fin 10)
deriving DecidableEq, Repr

/-- A register's byte offset in the window (10_state.md R32). -/
def Reg.offset (r : Reg) : BitVec 7 :=
  match r with
  | .id => 0x00#7
  | .cmd => 0x04#7
  | .status => 0x08#7
  | .dataIn => 0x0C#7
  | .hin n => BitVec.ofNat 7 (0x10 + 4 * n.val)
  | .totalLo => 0x24#7
  | .totalHi => 0x28#7
  | .digest n => BitVec.ofNat 7 (0x30 + 4 * n.val)
  | .hex j => BitVec.ofNat 7 (0x50 + 4 * j.val)

/-- Every register of the map, in the order of 10_state.md R32. -/
def allRegs : List Reg :=
  [.id, .cmd, .status, .dataIn]
    ++ (List.finRange 5).map .hin
    ++ [.totalLo, .totalHi]
    ++ (List.finRange 5).map .digest
    ++ (List.finRange 10).map .hex

/-- The register at a word offset, or none where the map has none: the six unmapped offsets (10_state.md R41). -/
def regAt (word : BitVec 7) : Option Reg := allRegs.find? fun r => r.offset == word

/-- Whether the register is one of HIN0..4 (45_bus_access.md R192). -/
def Reg.isHin (r : Reg) : Bool :=
  match r with
  | .hin _ => true
  | _ => false

/-- The offset of the word an access falls in, `off - (off mod 4)` (45_bus_access.md R192). -/
def wordOf (off : BitVec 7) : BitVec 7 := off - off % 4#7

/-- One aligned 4-byte access (45_bus_access.md R192). -/
def isFull (off : BitVec 7) (size : Size) : Bool := size == .word && off % 4#7 == 0#7

/-- What the access checks answer: the register accessed, or the error the access is refused with. -/
inductive Checked where
  | pass (r : Reg)
  | refuse (code : ErrorCode)
deriving DecidableEq, Repr

/-- `check(off, n, is_write)`: the first check that applies decides (45_bus_access.md R192, 60_exceptions.md R213). -/
def checkAccess (off : BitVec 7) (size : Size) (isWrite : Bool) : Checked :=
  match regAt (wordOf off) with
  | none => .refuse .badAccess
  | some r =>
    if isWrite && r.isHin && !isFull off size then .refuse .invalidInputLength
    else if !isFull off size then .refuse .badAccess
    else .pass r

/-- The ASCII character of a hex digit, lowercase (10_state.md R40). -/
def hexDigit (n : BitVec 4) : Byte :=
  if n.toNat ≤ 9 then 0x30#8 + n.setWidth 8 else 0x61#8 + (n.setWidth 8 - 10#8)

/-- Four characters of a 16-bit half word, the leftmost in bits 31:24 (10_state.md R40). -/
def hexWord (half : BitVec 16) : Word :=
  hexDigit (half.extractLsb' 12 4) ++ hexDigit (half.extractLsb' 8 4)
    ++ hexDigit (half.extractLsb' 4 4) ++ hexDigit (half.extractLsb' 0 4)

/-- `half` of HEXj: the upper half of DIGEST[j >> 1] if j is even, the lower if odd (10_state.md R40). -/
def hexHalf (digest : Words5) (j : Fin 10) : BitVec 16 :=
  let w := digest.get ⟨j.val / 2, by omega⟩
  if j.val % 2 = 0 then w.extractLsb' 16 16 else w.extractLsb' 0 16

/-- The 20-byte digest, the source's `digest()`: the five DIGEST words, each most significant byte first (10_state.md
R39, 20_memory.md R52(c)). -/
def Engine.digestBytes (e : Engine) : List Byte := bytesOf5 e.digest

/-- `reg(NAME)` at an engine whose unspecified reads are not in question: the exact values (45_bus_access.md R193). -/
def Engine.regValue (e : Engine) (r : Reg) : Word :=
  match r with
  | .id => Config.idValue
  | .cmd => 0#32
  | .status => statusWord e.tailLen e.errcode e.err e.dvalid e.busy
  | .dataIn => 0#32
  | .hin n => e.hin.get n
  | .totalLo => e.total.extractLsb' 0 32
  | .totalHi => e.total.extractLsb' 32 32
  | .digest n => e.digest.get n
  | .hex j => hexWord (hexHalf e.digest j)

/-- Whether a read of the register holds an unspecified value while BUSY = 1: TOTAL_LO, TOTAL_HI, DIGEST0..4, HEX0..9,
and STATUS in its TAIL_LEN field (70_reset_and_hazards.md R247). -/
def Reg.unspecifiedWhileBusy (r : Reg) : Bool :=
  match r with
  | .id => false
  | .cmd => false
  | .status => true
  | .dataIn => false
  | .hin _ => false
  | .totalLo => true
  | .totalHi => true
  | .digest _ => true
  | .hex _ => true

/-- The key of the draw after this one, of the same instance. -/
def DrawKey.next (k : DrawKey) : DrawKey := { k with count := k.count + 1 }

/-- What the unspecified read with key `k` returns (70_reset_and_hazards.md R247): a free draw of the register's width, or
for STATUS the exact BUSY, DVALID, ERR and ERRCODE with a free TAIL_LEN (log 2). -/
def Engine.drawnValue (e : Engine) (r : Reg) (k : DrawKey) : Word :=
  match r with
  | .status => statusWord (Config.freeTailLen k) e.errcode e.err e.dvalid e.busy
  | _ => Config.freeWord k

/-- Whether a read of this register now draws an unspecified value. -/
def Engine.drawsOnRead (e : Engine) (r : Reg) : Bool := e.busy && r.unspecifiedWhileBusy

/-- The value a checked read returns, `k` the key of the next draw (45_bus_access.md R193). -/
def Engine.readReg (e : Engine) (r : Reg) (k : DrawKey) : Word :=
  if e.drawsOnRead r then e.drawnValue r k else e.regValue r

/-- A checked write (45_bus_access.md R194, R196): STATUS clears the error record if bit 2 is set, CMD offers a
command, DATA_IN and HINn store the value, and the rest is read-only. -/
def Engine.writeReg (r : Reg) (v : Word) (e : Engine) : Engine :=
  match r with
  | .id => e.raiseError .badAccess
  | .cmd => e.offerCommand v
  | .status => if clearBit v then e.clearError else e
  | .dataIn => { e with dataIn := v }
  | .hin n => { e with hin := e.hin.set n v }
  | .totalLo => e.raiseError .badAccess
  | .totalHi => e.raiseError .badAccess
  | .digest _ => e.raiseError .badAccess
  | .hex _ => e.raiseError .badAccess

/-- What an access leaves: the engine, the value returned to the Host (none for a write), and the key of the next
draw. -/
structure BusResult where
  engine : Engine
  reply : Option Word
  draws : DrawKey
deriving DecidableEq, Repr

/-- `BusRead(off, n)`, `k` the key of the next draw: a refused read records the error and returns 0; a checked one
changes no state of the engine (45_bus_access.md R191, R193; 20_memory.md R58). -/
def busRead (off : BitVec 7) (size : Size) (e : Engine) (k : DrawKey) : BusResult :=
  match checkAccess off size false with
  | .refuse code => ⟨e.raiseError code, some 0#32, k⟩
  | .pass r => ⟨e, some (e.readReg r k), if e.drawsOnRead r then k.next else k⟩

/-- `BusWrite(off, n, v)`: a refused write records the error and changes nothing else (45_bus_access.md R191). -/
def busWrite (off : BitVec 7) (size : Size) (v : Word) (e : Engine) (k : DrawKey) : BusResult :=
  match checkAccess off size true with
  | .refuse code => ⟨e.raiseError code, none, k⟩
  | .pass r => ⟨e.writeReg r v, none, k⟩

/-- One Host access, whole, in one step (20_memory.md R57). -/
def busAccess (a : Access) (e : Engine) (k : DrawKey) : BusResult :=
  match a with
  | .read off size => busRead off size e k
  | .write off size v => busWrite off size v e k

end Sys2Proof.Machine
end

