-- ==== Sys2Proof/Machine/HostProgram.lean ====
section
/-! DEFINITION. Host programs: the assembler lines and pseudo-instructions of 30_encoding.md R76 and R77, and one step
of a Host (20_memory.md R61). -/

namespace Sys2Proof.Machine

/-- A line of a Host program (30_encoding.md R76, R77). -/
inductive HostLine where
  /-- `WR <reg>, <imm32>`. -/
  | wr (r : Reg) (v : Word)
  /-- `RD <reg>`. -/
  | rd (r : Reg)
  /-- `CMD <mnemonic> [<n>]`. -/
  | cmd (i : Instr)
  /-- `WAIT`. -/
  | wait
  /-- Any other single bus access, a sub-word, misaligned or unmapped one among them (45_bus_access.md R190). -/
  | raw (a : Access)
  /-- `FEED "<bytes>"`. -/
  | feed (bytes : List Byte)
  /-- `LOADH <v0>, <v1>, <v2>, <v3>, <v4>`. -/
  | loadh (v : Words5)
  /-- `DIGEST`. -/
  | digest
  /-- `HEXDIGEST`. -/
  | hexdigest
  /-- `NEW`. -/
  | newMessage
deriving DecidableEq, Repr

/-- A full-word write of a register (30_encoding.md R76). -/
def opWr (r : Reg) (v : Word) : HostOp := .access (.write r.offset .word v)

/-- A full-word read of a register (30_encoding.md R76). -/
def opRd (r : Reg) : HostOp := .access (.read r.offset .word)

/-- The write of a command's word to CMD (30_encoding.md R76). -/
def opCmd (i : Instr) : HostOp := opWr .cmd (encode i)


/-- `WR DATA_IN, v`, `CMD UPDATE n`, `WAIT` (30_encoding.md R77). -/
def feedGroup (v : Word) (n : BitVec 3) : List HostOp := [opWr .dataIn v, opCmd (.update n), .wait]

/-- FEED's expansion: groups of four bytes in order, the last one possibly shorter, no group for no byte
(30_encoding.md R77). -/
def feedOps : List Byte → List HostOp
  | b0 :: b1 :: b2 :: b3 :: rest => feedGroup (be32 b0 b1 b2 b3) 4#3 ++ feedOps rest
  | [b0, b1, b2] => feedGroup (be32 b0 b1 b2 0#8) 3#3
  | [b0, b1] => feedGroup (be32 b0 b1 0#8 0#8) 2#3
  | [b0] => feedGroup (be32 b0 0#8 0#8 0#8) 1#3
  | [] => []

/-- The bus operations a line stands for (30_encoding.md R76, R77). -/
def HostLine.expand (l : HostLine) : List HostOp :=
  match l with
  | .wr r v => [opWr r v]
  | .rd r => [opRd r]
  | .cmd i => [opCmd i]
  | .wait => [.wait]
  | .raw a => [.access a]
  | .feed bytes => feedOps bytes
  | .loadh v => (List.finRange 5).map (fun n => opWr (.hin n) (v.get n)) ++ [opCmd .setreg, .wait]
  | .digest => [opCmd .finalize, .wait] ++ (List.finRange 5).map (fun n => opRd (.digest n))
  | .hexdigest => [opCmd .finalize, .wait] ++ (List.finRange 10).map (fun j => opRd (.hex j))
  | .newMessage => [opCmd .init, .wait]

/-- The bus operations of a program, line by line. -/
def assemble (p : List HostLine) : List HostOp := p.flatMap HostLine.expand

/-- The access a Host operation issues: its own, or for WAIT a read of STATUS (30_encoding.md R76). -/
def HostOp.toAccess (op : HostOp) : Access :=
  match op with
  | .access a => a
  | .wait => .read Reg.status.offset .word

/-- Whether the operation is done after its access answered `reply`: WAIT goes on until BUSY reads 0
(30_encoding.md R76, 70_reset_and_hazards.md R251). -/
def HostOp.finished (op : HostOp) (reply : Option Word) : Bool :=
  match op with
  | .access _ => true
  | .wait =>
    match reply with
    | some w => !busyBit w
    | none => true

/-- The Host after its access: the operation dropped if done, a returned value received. -/
def HostAgent.after (h : HostAgent) (op : HostOp) (rest : List HostOp) (reply : Option Word) : HostAgent where
  program := if op.finished reply then rest else h.program
  received := reply.toList ++ h.received

/-- One step of Host `k`: its next access, whole (20_memory.md R57, R61). A Host with nothing left to issue, or a
number no Host has, makes no access and nothing changes. -/
def State.hostStep (k : Nat) (s : State) : State :=
  match s.hosts[k]? with
  | none => s
  | some h =>
    match h.program with
    | [] => s
    | op :: rest =>
      let r := busAccess op.toAccess s.engine s.draws
      { s with
        engine := r.engine
        draws := r.draws
        hosts := s.hosts.set k (h.after op rest r.reply) }

end Sys2Proof.Machine
end

