-- ==== Sys2Proof/Machine/Schedule.lean ====
section
/-! DEFINITION. Whose step comes next, and how a command word is placed for the Engine's next step. -/

namespace Sys2Proof.Machine

/-- Whether a Host has an access left to issue. -/
def HostAgent.ready (h : HostAgent) : Bool := !h.program.isEmpty

/-- The agent that moves next. The schedule decides while it lasts: any interleaving of Host accesses, Engine
performances and resets is some schedule (20_memory.md R61). After it the Engine moves if a command is pending, which
is the weak fairness of 40_commands.md R102 and 70_reset_and_hazards.md R251; else the first Host with an access left;
else nobody has a step, and the engine stays idle (DESIGN CHOICE, log 4). -/
def State.nextAgent (s : State) : Agent :=
  match s.schedule with
  | a :: _ => a
  | [] =>
    if s.engine.pending.isSome then .engine
    else
      match s.hosts.findIdx? HostAgent.ready with
      | some k => .host k
      | none => .engine

/-- The schedule's head is used up. -/
def State.advance (s : State) : State := { s with schedule := s.schedule.tail }

/-- Schedule the agent for the very next step. An empty schedule already gives the next step to the Engine when a
command is pending. -/
def State.scheduleEngine (s : State) : State :=
  match s.schedule with
  | [] => s
  | _ :: _ => { s with schedule := .engine :: s.schedule }

/-- Give Host 0 an access to issue before all it has left, and the next step. -/
def State.hostAccessNext (a : Access) (s : State) : State :=
  match s.hosts with
  | [] => { s with hosts := [⟨[.access a], []⟩], schedule := .host 0 :: s.schedule }
  | h :: hs => { s with hosts := { h with program := .access a :: h.program } :: hs, schedule := .host 0 :: s.schedule }

/-- Place an instruction for the Engine's next step: accepted as a CMD write would accept it (40_commands.md R101), the
Engine moving next (log 5). A word that is no command cannot be pending: it stays a CMD write, Host 0's next access. -/
def State.placeCommand (nbits w : Nat) (s : State) : State :=
  match decodeTableWord nbits w with
  | some i => (s.onEngine (Engine.accept i)).scheduleEngine
  | none => s.hostAccessNext (.write Reg.cmd.offset .word (BitVec.ofNat 32 w))

end Sys2Proof.Machine
end

