-- ==== Sys2Proof/Machine/Step.lean ====
section
/-! DEFINITION. One step of the machine: a Host access, an Engine performance or a reset (20_memory.md R61). -/

namespace Sys2Proof.Machine

/-- The Engine's step: it has one exactly when PENDING is not none, and then performs that command (40_commands.md
R102); otherwise the engine is idle and holds all its state (60_exceptions.md R226). -/
def engineStep (s : State) : Host.Outcome State Fault Refusal :=
  match s.engine.pending with
  | some p => exec p.cmd s
  | none => .next s

/-- One step: the next agent moves, and the schedule's head is used up. -/
def step (s : State) : Host.Outcome State Fault Refusal :=
  match s.nextAgent with
  | .engine => engineStep s.advance
  | .host k => .next (s.advance.hostStep k)
  | .reset => .next s.advance.resetEngine

/-- `s` with the command word `w` placed where the engine takes its next instruction from: PENDING, the Engine moving
next. The engine fetches nothing (10_state.md R21); this stands for the Host's CMD write and its acceptance (log 5). -/
def State.withFetchWord (s : State) (nbits w : Nat) : State := s.placeCommand nbits w

end Sys2Proof.Machine
end

