-- ==== Sys2Proof/Machine/Platform.lean ====
section
/-! DEFINITION. A platform: any number of engine instances, each with its own window base and its own complete state
(60_exceptions.md R224, 20_memory.md R53). ENGINE_BASE and N_ENGINES are its data, open to every value (log 9). -/

namespace Sys2Proof.Machine

/-- An instance on the platform: its ENGINE_BASE and its machine. -/
structure Slot where
  base : Nat
  machine : State
deriving DecidableEq, Repr

/-- The instances; N_ENGINES is the list's length. -/
abbrev Platform := List Slot

/-- Every base is a multiple of 0x80 and no two instances have the same, so the windows are apart (20_memory.md R53). -/
def windowsApart (p : Platform) : Bool :=
  p.all (fun s => s.base % Config.windowSize == 0) && (p.map Slot.base).Nodup

/-- No two instances have the same name in their draw keys, so no unspecified reads of two instances share a draw
(70_reset_and_hazards.md R247, log 2). -/
def drawsApart (p : Platform) : Bool := (p.map fun s => s.machine.draws.unit).Nodup

/-- A platform's windows are apart, and so are its instances' draws. -/
def platformWf (p : Platform) : Bool := windowsApart p && drawsApart p

/-- A platform right after reset: one instance at each base, each with its complete state of its own and the draws of
its own place in the list (60_exceptions.md R224, log 2, log 9). -/
def platformReset (bases : List Nat) : Platform :=
  bases.zipIdx.map fun b => ⟨b.1, { State.reset with draws := ⟨b.2, 0⟩ }⟩

/-- Whether a byte address falls in the window at `base` (20_memory.md R51). -/
def inWindow (base addr : Nat) : Bool := base ≤ addr && addr < base + Config.windowSize

/-- `offset = addr - ENGINE_BASE`, the low 7 address bits (20_memory.md R53). -/
def windowOffset (base addr : Nat) : BitVec 7 := BitVec.ofNat 7 (addr - base)

/-- The instance whose window holds the address, if any: an access outside every window reaches no engine
(20_memory.md R53). -/
def instanceAt (p : Platform) (addr : Nat) : Option Nat := p.findIdx? fun s => inWindow s.base addr

/-- What an access at an absolute address leaves of the platform, and what it returns: it is the instance's own bus
access at the address's offset, and nothing at all outside every window. -/
def platformAccess (addr : Nat) (at_ : BitVec 7 → Access) (p : Platform) : Platform × Option Word :=
  match instanceAt p addr with
  | none => (p, none)
  | some k =>
    match p[k]? with
    | none => (p, none)
    | some slot =>
      let m := slot.machine
      let r := busAccess (at_ (windowOffset slot.base addr)) m.engine m.draws
      (p.set k { slot with machine := { m with engine := r.engine, draws := r.draws } }, r.reply)

/-- A read of `n` bytes at an absolute address. -/
def platformRead (addr : Nat) (size : Size) (p : Platform) : Platform × Option Word :=
  platformAccess addr (fun off => .read off size) p

/-- A write of `n` bytes at an absolute address. -/
def platformWrite (addr : Nat) (size : Size) (v : Word) (p : Platform) : Platform :=
  (platformAccess addr (fun off => .write off size v) p).1

/-- One step of instance `k`; a number no instance has is no step (60_exceptions.md R224). -/
def platformStep (k : Nat) (p : Platform) : Host.Outcome Platform Fault Refusal :=
  match p[k]? with
  | none => .next p
  | some slot =>
    match step slot.machine with
    | .next t => .next (p.set k { slot with machine := t })
    | .fault f => .fault f
    | .refused r => .refused r

end Sys2Proof.Machine
end

