-- ==== Sys2Proof/Safety.lean ====
section
/-! DEFINITION. The terms the statements use: the invariant of an engine, issuing a command, and a stream of bytes
delivered by UPDATE commands. -/

namespace Sys2Proof.Machine

/-- BUSY = 1 exactly when PENDING is not none (10_state.md R29). -/
abbrev BusyMatchesPending (e : Engine) : Prop := e.busy = e.pending.isSome

/-- Whether the pending command, if any, is one some word encodes (30_encoding.md R73, 40_commands.md R101). -/
def pendingWellFormed (e : Engine) : Bool :=
  match e.pending with
  | none => true
  | some p => WellFormed p.cmd

/-- TOTAL mod 64 = 0 (10_state.md R27). -/
abbrev TotalInBlocks (e : Engine) : Prop := e.total.toNat % 64 = 0

/-- ERRCODE is 0x00 with ERR = 0 and one of 0x01..0x04 with ERR = 1 (60_exceptions.md R210). -/
abbrev ErrorRecordLegal (e : Engine) : Prop :=
  (e.err = true → 1 ≤ e.errcode.toNat ∧ e.errcode.toNat ≤ 4) ∧ (e.err = false → e.errcode = 0x00#8)

/-- Whether nothing but a NOP is pending. -/
def idleOrNop (e : Engine) : Bool :=
  match e.pending with
  | none => true
  | some p => p.cmd == .nop

/-- DVALID = 1 means that no command but NOP has been accepted since the last FINALIZE was performed, so DIGEST is the
digest of the current HashState (10_state.md R30). -/
abbrev DigestFresh (e : Engine) : Prop :=
  e.dvalid = true → idleOrNop e = true ∧ e.digest = digestOf e.h e.tailBytes e.total

/-- The invariant of an engine instance, kept by every step. -/
abbrev EngineInv (e : Engine) : Prop :=
  BusyMatchesPending e ∧ pendingWellFormed e = true ∧ TotalInBlocks e ∧ ErrorRecordLegal e ∧ DigestFresh e

/-- The invariant of a state: that of its engine. -/
abbrev Inv (s : State) : Prop := EngineInv s.engine

/-- Two engines alike but for TAIL's bytes at and above TAIL_LEN, which no rule reads (10_state.md R25). -/
abbrev AlikeButUnusedTail (e f : Engine) : Prop :=
  { e with tail := f.tail } = f ∧ e.tailBytes = f.tailBytes

/-- The bus access a step makes, if it is a Host's step with an access left (20_memory.md R61, 30_encoding.md R76). -/
def accessOf (s : State) : Option Access :=
  match s.nextAgent with
  | .engine => none
  | .reset => none
  | .host k =>
    match s.hosts[k]? with
    | none => none
    | some h => h.program.head?.map HostOp.toAccess

/-- The word offsets the register map leaves unmapped (10_state.md R41). -/
def unmappedWords : List Nat := [0x2C, 0x44, 0x48, 0x4C, 0x78, 0x7C]

/-- The word offsets of HIN0..4 (10_state.md R32). -/
def hinWords : List Nat := [0x10, 0x14, 0x18, 0x1C, 0x20]

/-- The word offsets of the read-only registers: ID, TOTAL_LO, TOTAL_HI, DIGEST0..4, HEX0..9 (45_bus_access.md
R196). -/
def readOnlyWords : List Nat :=
  [0x00, 0x24, 0x28, 0x30, 0x34, 0x38, 0x3C, 0x40, 0x50, 0x54, 0x58, 0x5C, 0x60, 0x64, 0x68, 0x6C, 0x70, 0x74]

/-- Whether the word decodes to no command (30_encoding.md R74). -/
def isIllegal (c : Word) : Bool :=
  match decode c with
  | .legal _ => false
  | .illegal _ => true

/-- The one error an access reports, by the order of 60_exceptions.md R213: unmapped; a write to HIN0..4 that is not
one aligned 4-byte write; any other access that is not; and for a write, a read-only register; CMD while busy; CMD with
an illegal word. -/
def errorOf (a : Access) (e : Engine) : Option ErrorCode :=
  match a with
  | .read off size =>
    if off.toNat - off.toNat % 4 ∈ unmappedWords then some .badAccess
    else if ¬ (size = .word ∧ off.toNat % 4 = 0) then some .badAccess
    else none
  | .write off size v =>
    if off.toNat - off.toNat % 4 ∈ unmappedWords then some .badAccess
    else if off.toNat - off.toNat % 4 ∈ hinWords ∧ ¬ (size = .word ∧ off.toNat % 4 = 0) then some .invalidInputLength
    else if ¬ (size = .word ∧ off.toNat % 4 = 0) then some .badAccess
    else if off.toNat ∈ readOnlyWords then some .badAccess
    else if off.toNat = 0x04 ∧ e.busy = true then some .cmdWhileBusy
    else if off.toNat = 0x04 ∧ isIllegal v = true then some .illegalCmd
    else none

/-- A command accepted and then performed, no other step between (40_commands.md R101, R102). -/
def issue (i : Instr) (s : State) : Host.Outcome State Fault Refusal :=
  exec i (s.onEngine (Engine.accept i))

/-- The commands that may stand in a stream that is being fed (41_update.md R124): UPDATE n of a word the Host has
written to DATA_IN, and FINALIZE and NOP, which change nothing of the stream. -/
inductive StreamCommand where
  | update (n : BitVec 3) (data : Word)
  | finalize
  | nop
deriving DecidableEq, Repr

/-- The bytes a stream command delivers: the first n of the data word, bits 31:24 first (41_update.md R121). -/
def StreamCommand.bytes (c : StreamCommand) : List Byte :=
  match c with
  | .update n data => (List.range n.toNat).map fun k => data.extractLsb' (24 - 8 * k) 8
  | .finalize => []
  | .nop => []

/-- Whether a word encodes the command: UPDATE takes 0 to 4 bytes (30_encoding.md R72). -/
def StreamCommand.legal (c : StreamCommand) : Bool :=
  match c with
  | .update n _ => n ≤ 4#3
  | .finalize => true
  | .nop => true

/-- The Host writes DATA_IN for an UPDATE, and issues the command. -/
def StreamCommand.run (c : StreamCommand) (s : State) : Host.Outcome State Fault Refusal :=
  match c with
  | .update n data => issue (.update n) (s.onEngine fun e => { e with dataIn := data })
  | .finalize => issue .finalize s
  | .nop => issue .nop s

/-- Go on from the state an outcome answers; a stop stays. -/
def andThen (o : Host.Outcome State Fault Refusal) (f : State → Host.Outcome State Fault Refusal) :
    Host.Outcome State Fault Refusal :=
  match o with
  | .next t => f t
  | .fault r => .fault r
  | .refused r => .refused r

/-- Stream commands one after another, each performed before the next is accepted (40_commands.md R104). -/
def runStream : List StreamCommand → State → Host.Outcome State Fault Refusal
  | [], s => .next s
  | c :: cs, s => andThen (c.run s) (runStream cs)

/-- All the bytes of a stream, in order. -/
def streamBytes (cs : List StreamCommand) : List Byte := cs.flatMap StreamCommand.bytes

/-- Whether every command of a stream is one some word encodes. -/
def legalStream (cs : List StreamCommand) : Bool := cs.all StreamCommand.legal

/-- INIT, the stream, FINALIZE: the per-message sequence of 70_reset_and_hazards.md R242. -/
def hashStream (cs : List StreamCommand) (s : State) : Host.Outcome State Fault Refusal :=
  andThen (andThen (issue .init s) (runStream cs)) (issue .finalize)

/-- SETREG of the five words `d`, the stream, FINALIZE: the length-extension sequence of 43_setreg.md R162. -/
def extendStream (d : Words5) (cs : List StreamCommand) (s : State) : Host.Outcome State Fault Refusal :=
  andThen (andThen (issue .setreg (s.onEngine fun e => { e with hin := d })) (runStream cs)) (issue .finalize)

end Sys2Proof.Machine
end

