-- ==== Sys2Proof/Certificates/Slice0/Obligations.lean ====
section
/-! DEFINITION. The statements about the engine, each from the numbered rules of spec/ its docstring names. -/

open Sys2Proof Sys2Proof.Machine

/-! ## Command words -/

/-- A word decodes to a command exactly when the command is well formed and the word encodes it (30_encoding.md R72,
R73). Read from right to left: decoding an encoded command gives it back, with every LEN. -/
def Obligations.DecodeAgreesWithEncode : Prop :=
  ∀ (w : Word) (i : Instr), decode w = .legal i ↔ WellFormed i = true ∧ encode i = w

/-- Exactly nine words are legal, and these are the commands they decode to (30_encoding.md R72, R73). -/
def Obligations.ExactlyNineLegalWords : Prop :=
  ∀ (w : Word) (i : Instr), decode w = .legal i ↔
    (w, i) ∈ [(0x00000000#32, Instr.nop), (0x00000001#32, .init), (0x00000002#32, .update 0#3),
      (0x00000102#32, .update 1#3), (0x00000202#32, .update 2#3), (0x00000302#32, .update 3#3),
      (0x00000402#32, .update 4#3), (0x00000003#32, .finalize), (0x00000004#32, .setreg)]

/-- A word is illegal exactly when RSV is not 0, or OPCODE is 0x05..0xFF, or LEN is not 0 on OPCODE 0x00, 0x01, 0x03,
0x04, or LEN is 5..7 on OPCODE 0x02 (30_encoding.md R74). -/
def Obligations.IllegalWordsExactly : Prop :=
  ∀ c : Word,
    (∃ why, decode c = .illegal why) ↔
      (c.toNat / 2 ^ 11 ≠ 0 ∨ 0x05 ≤ c.toNat % 256 ∨
        (c.toNat % 256 ≠ 0x02 ∧ c.toNat / 256 % 8 ≠ 0) ∨
        (c.toNat % 256 = 0x02 ∧ 5 ≤ c.toNat / 256 % 8))

/-- A few words, as the opcode map writes them (30_encoding.md R72, R74). -/
def Obligations.SampleWordsDecode : Prop :=
  decode 0x00000000#32 = .legal .nop ∧ decode 0x00000001#32 = .legal .init ∧
    decode 0x00000302#32 = .legal (.update 3#3) ∧ decode 0x00000003#32 = .legal .finalize ∧
    decode 0x00000004#32 = .legal .setreg ∧ decode 0x00000502#32 = .illegal .lenTooLong ∧
    decode 0x00000101#32 = .illegal .lenNotZero ∧ decode 0x00000005#32 = .illegal .unknownOpcode ∧
    decode 0x80000003#32 = .illegal .reservedBits

/-! ## Steps -/

/-- Whoever heads the schedule moves, and the head is used up: any interleaving of Host accesses, Engine performances
and resets is a run (20_memory.md R61). The schedule is the model's own (log 4). That a reset leaves the Hosts and the
draw key as they are is the model's reading (log 8), and that Engine.reset holds zeros in TAIL its choice (log 1). -/
def Obligations.ScheduleDecidesWhoMoves : Prop :=
  ∀ (s : State) (a : Agent) (rest : List Agent), s.schedule = a :: rest →
    step s = match a with
      | .engine => engineStep { s with schedule := rest }
      | .host k => .next ({ s with schedule := rest }.hostStep k)
      | .reset => .next { s with schedule := rest, engine := Engine.reset }

/-- The Engine's step performs the pending command (40_commands.md R102): the step is exec of it, with the schedule's
head used up. The schedule, and that a step uses its head up, are the model's own (log 4). -/
def Obligations.StepRunsPendingCommand : Prop :=
  ∀ (s : State) (p : Pending), s.engine.pending = some p → s.nextAgent = .engine →
    step s = exec p.cmd { s with schedule := s.schedule.tail }

/-- Placing a command's word and stepping runs exactly the command it decodes to, with the operands an acceptance at
`s` latches (40_commands.md R101, R102; withFetchWord is the model's own, log 5). -/
def Obligations.StepRunsDecodedWord : Prop :=
  ∀ (s : State) (w : Word) (i : Instr), decode w = .legal i →
    step (s.withFetchWord 32 w.toNat) =
      exec i { s with engine := { s.engine with
        pending := some ⟨i, s.engine.dataIn, s.engine.hin⟩
        busy := true
        dvalid := if i = .nop then s.engine.dvalid else false } }

/-- With nothing pending, nothing scheduled and no Host with an access left, a step changes nothing: the engine holds
all its state (60_exceptions.md R226). -/
def Obligations.IdleMachineHoldsItsState : Prop :=
  ∀ s : State, s.engine.pending = none → s.schedule = [] → (∀ h ∈ s.hosts, h.program = []) → step s = .next s

/-- Every step of every state answers a next state: no error stops the machine and no performance fails
(40_commands.md R102; 60_exceptions.md R217, R219). -/
def Obligations.EveryStepAnswersNext : Prop :=
  ∀ s : State, ∃ t, step s = .next t

/-- A pending command stays pending, unchanged, until within as many steps as are scheduled the Engine's step that
performs it is next, or a reset that abandons it (40_commands.md R102, 70_reset_and_hazards.md R251). -/
def Obligations.PendingCommandReachesTheEngine : Prop :=
  ∀ (s : State) (p : Pending), s.engine.pending = some p → s.engine.busy = true →
    ∃ k u, k ≤ s.schedule.length ∧ Host.Core.run Sys2Proof.core k s = .next u ∧
      u.engine.pending = some p ∧ (u.nextAgent = .engine ∨ u.nextAgent = .reset)

/-! ## Reset -/

/-- The state after reset (10_state.md R43, R24), TAIL's unspecified bytes apart. -/
def Obligations.ResetValues : Prop :=
  let e := State.reset.engine
  e.h = ⟨0x67452301#32, 0xEFCDAB89#32, 0x98BADCFE#32, 0x10325476#32, 0xC3D2E1F0#32⟩ ∧
    e.tailLen = 0#6 ∧ e.total = 0#64 ∧ e.dataIn = 0#32 ∧ e.hin = ⟨0#32, 0#32, 0#32, 0#32, 0#32⟩ ∧
    e.pending = none ∧ e.busy = false ∧ e.dvalid = false ∧ e.err = false ∧ e.errcode = 0x00#8 ∧
    e.digest = ⟨0#32, 0#32, 0#32, 0#32, 0#32⟩

/-- A reset step, from any state, busy or not, leaves every element at its reset value and a pending command abandoned;
the Hosts go on where they were and the draw key stays (70_reset_and_hazards.md R240; the Hosts' part and the key's are
log 8). -/
def Obligations.ResetStepClearsTheEngine : Prop :=
  ∀ s : State, s.nextAgent = .reset → ∃ t, step s = .next t ∧
    t.engine.h = ⟨0x67452301#32, 0xEFCDAB89#32, 0x98BADCFE#32, 0x10325476#32, 0xC3D2E1F0#32⟩ ∧
    t.engine.tailLen = 0#6 ∧ t.engine.total = 0#64 ∧ t.engine.dataIn = 0#32 ∧
    t.engine.hin = ⟨0#32, 0#32, 0#32, 0#32, 0#32⟩ ∧ t.engine.pending = none ∧ t.engine.busy = false ∧
    t.engine.dvalid = false ∧ t.engine.err = false ∧ t.engine.errcode = 0x00#8 ∧
    t.engine.digest = ⟨0#32, 0#32, 0#32, 0#32, 0#32⟩ ∧ t.hosts = s.hosts ∧ t.draws = s.draws

/-- The invariant holds right after reset. -/
def Obligations.InvariantHoldsAtReset : Prop := Inv State.reset

/-- Every step keeps the invariant: BUSY = 1 exactly when a command is pending, a pending command is legal, TOTAL mod
64 = 0, the error record is legal, and DVALID = 1 means that DIGEST is the digest of the current HashState with at most
a NOP pending (10_state.md R27, R29, R30, R31; 60_exceptions.md R210). -/
def Obligations.EveryStepKeepsTheInvariant : Prop :=
  ∀ s t : State, Inv s → step s = .next t → Inv t

/-! ## The commands -/

/-- NOP completes and changes nothing but PENDING and BUSY (40_commands.md R103, R102). -/
def Obligations.NopOnlyRetires : Prop :=
  ∀ s : State, exec .nop s = .next { s with engine := { s.engine with pending := none, busy := false } }

/-- INIT completes with H = IV, TAIL_LEN = 0, TOTAL = 0, and nothing else changed but PENDING and BUSY (41_update.md
R120). -/
def Obligations.InitStartsAFreshHashState : Prop :=
  ∀ s : State, exec .init s = .next { s with engine := { s.engine with
    h := ⟨0x67452301#32, 0xEFCDAB89#32, 0x98BADCFE#32, 0x10325476#32, 0xC3D2E1F0#32⟩
    tailLen := 0#6
    total := 0#64
    pending := none
    busy := false } }

/-- UPDATE n completes: the first n bytes of the latched data, bits 31:24 first, are appended to the tail; if that
reaches 64 bytes, the first 64 are folded into H, TOTAL advances by 64 modulo 2^64, and the rest is the new tail; all
else stays but PENDING and BUSY (41_update.md R121, R122). -/
def Obligations.UpdateAppendsBytesAndAbsorbs : Prop :=
  ∀ (s : State) (p : Pending) (n : BitVec 3), n.toNat ≤ 4 → s.engine.pending = some p →
    ∃ t, exec (.update n) s = .next t ∧
      (let u := s.engine.tailBytes ++ (List.range n.toNat).map fun k => p.data.extractLsb' (24 - 8 * k) 8
       if u.length < 64 then
         t.engine.h = s.engine.h ∧ t.engine.total = s.engine.total ∧
           t.engine.tailLen.toNat = u.length ∧ t.engine.tailBytes = u
       else
         t.engine.h = compress s.engine.h (u.take 64) ∧ t.engine.total = s.engine.total + 64#64 ∧
           t.engine.tailLen.toNat = u.length - 64 ∧ t.engine.tailBytes = u.drop 64) ∧
      t.engine.dataIn = s.engine.dataIn ∧ t.engine.hin = s.engine.hin ∧ t.engine.pending = none ∧
      t.engine.busy = false ∧ t.engine.dvalid = s.engine.dvalid ∧ t.engine.err = s.engine.err ∧
      t.engine.errcode = s.engine.errcode ∧ t.engine.digest = s.engine.digest ∧
      t.hosts = s.hosts ∧ t.schedule = s.schedule ∧ t.draws = s.draws

/-- FINALIZE completes with the digest of the current HashState in DIGEST and DVALID = 1, the padded tail compressed
block by block from a copy of H, and nothing else changed but PENDING and BUSY (42_finalize.md R140). -/
def Obligations.FinalizeStoresTheDigest : Prop :=
  ∀ s : State, exec .finalize s = .next { s with engine := { s.engine with
    digest := (blocksOf (pad s.engine.tailBytes s.engine.total)).foldl compress s.engine.h
    dvalid := true
    pending := none
    busy := false } }

/-- SETREG completes with H the five latched values, whatever they are, and nothing else changed but PENDING and BUSY
(43_setreg.md R160, R161). -/
def Obligations.SetregLoadsTheLatchedValues : Prop :=
  ∀ (s : State) (p : Pending), s.engine.pending = some p →
    exec .setreg s = .next { s with engine := { s.engine with h := p.hin, pending := none, busy := false } }

/-- What a performance leaves unchanged: every element but PENDING and BUSY, unless the command is named for it
(10_state.md R22, R26, R30, R31). -/
def Obligations.PerformanceFrame : Prop :=
  ∀ (i : Instr) (s : State), ∃ t, exec i s = .next t ∧
    t.engine.pending = none ∧ t.engine.busy = false ∧
    ((i = .nop ∨ i = .finalize) → t.engine.h = s.engine.h) ∧
    ((∀ n, i ≠ .update n) → t.engine.tail = s.engine.tail) ∧
    ((i = .nop ∨ i = .finalize ∨ i = .setreg) →
      t.engine.tailLen = s.engine.tailLen ∧ t.engine.total = s.engine.total) ∧
    (i ≠ .finalize → t.engine.digest = s.engine.digest ∧ t.engine.dvalid = s.engine.dvalid) ∧
    t.engine.dataIn = s.engine.dataIn ∧ t.engine.hin = s.engine.hin ∧ t.engine.err = s.engine.err ∧
    t.engine.errcode = s.engine.errcode ∧ t.hosts = s.hosts ∧ t.schedule = s.schedule ∧ t.draws = s.draws

/-- FINALIZE twice gives the same DIGEST, and an UPDATE after a FINALIZE leaves the same HashState as without it
(42_finalize.md R143). -/
def Obligations.FinalizeIsTransparent : Prop :=
  ∀ (s : State) (n : BitVec 3), ∃ t u v w,
    issue .finalize s = .next t ∧ issue .finalize t = .next u ∧ u.engine.digest = t.engine.digest ∧
    t.engine.h = s.engine.h ∧ t.engine.tail = s.engine.tail ∧ t.engine.tailLen = s.engine.tailLen ∧
    t.engine.total = s.engine.total ∧
    issue (.update n) t = .next v ∧ issue (.update n) s = .next w ∧
    v.engine.h = w.engine.h ∧ v.engine.tail = w.engine.tail ∧ v.engine.tailLen = w.engine.tailLen ∧
    v.engine.total = w.engine.total

/-- Chunking never changes the result (41_update.md R124): however the bytes are cut into UPDATE commands, with
FINALIZEs and NOPs among them, the state left is that of the whole byte sequence. -/
def Obligations.ChunkingNeverChangesTheResult : Prop :=
  ∀ (s : State) (cs : List StreamCommand), legalStream cs = true →
    ∃ t, runStream cs s = .next t ∧
      (let u := s.engine.tailBytes ++ streamBytes cs
       let q := u.length / 64
       t.engine.h = (blocksOf u).foldl compress s.engine.h ∧
         t.engine.total.toNat = (s.engine.total.toNat + 64 * q) % 2 ^ 64 ∧
         t.engine.tailLen.toNat = u.length - 64 * q ∧ t.engine.tailBytes = u.drop (64 * q))

/-- INIT, the bytes in any chunks, FINALIZE: DIGEST is the fold, from the IV, of the whole message padded once, its
length field the bit length modulo 2^64 (42_finalize.md R140, R141, R144; 41_update.md R124). -/
def Obligations.DigestIsThatOfTheWholeMessage : Prop :=
  ∀ (s : State) (cs : List StreamCommand), legalStream cs = true →
    ∃ t, hashStream cs s = .next t ∧ t.engine.dvalid = true ∧
      t.engine.digest = (blocksOf (pad (streamBytes cs) 0#64)).foldl compress iv

/-- TOTAL + TAIL_LEN counts the bytes delivered since INIT, modulo 2^64 (10_state.md R27). -/
def Obligations.ByteCountSinceInit : Prop :=
  ∀ (s : State) (cs : List StreamCommand), legalStream cs = true →
    ∃ t, andThen (issue .init s) (runStream cs) = .next t ∧
      (t.engine.total.toNat + t.engine.tailLen.toNat) % 2 ^ 64 = (streamBytes cs).length % 2 ^ 64

/-- The length-extension property (43_setreg.md R162): from TOTAL = L mod 2^64 and TAIL_LEN = 0, SETREG of the digest
of P, the bytes of S and FINALIZE give the digest of P, its glue padding, and S. -/
def Obligations.LengthExtension : Prop :=
  ∀ (s₁ s₂ s₃ : State) (csP csS csAll : List StreamCommand),
    legalStream csP = true → legalStream csS = true → legalStream csAll = true →
    streamBytes csAll =
      streamBytes csP ++ (pad (streamBytes csP) 0#64).drop (streamBytes csP).length ++ streamBytes csS →
    s₂.engine.total = BitVec.ofNat 64 (pad (streamBytes csP) 0#64).length → s₂.engine.tailLen = 0#6 →
    ∃ t₁ t₂ t₃, hashStream csP s₁ = .next t₁ ∧ extendStream t₁.engine.digest csS s₂ = .next t₂ ∧
      hashStream csAll s₃ = .next t₃ ∧ t₂.engine.digest = t₃.engine.digest

/-! ## Padding and compression -/

/-- The padding of a buffered tail (42_finalize.md R141): the tail, one byte 0x80, the least number of zero bytes that
makes the length 56 modulo 64, then the bit length modulo 2^64 as 8 bytes, the most significant first. -/
def Obligations.PaddingLayout : Prop :=
  ∀ (t : List Byte) (total : BitVec 64), t.length ≤ 63 →
    ∃ z len, z ≤ 63 ∧ (t.length + 1 + z) % 64 = 56 ∧ pad t total = t ++ [0x80#8] ++ List.replicate z 0#8 ++ len ∧
      len.length = 8 ∧
      len.foldl (fun acc b => acc * 256 + b.toNat) 0 = (total.toNat + t.length) * 8 % 2 ^ 64

/-- One padded block for a tail of at most 55 bytes, with 55 - len zero bytes, two for 56 to 63, with 119 - len
(42_finalize.md R142), and what FINALIZE makes of them (R140). -/
def Obligations.OneOrTwoPaddedBlocks : Prop :=
  ∀ (x : Words5) (t : List Byte) (total : BitVec 64),
    (t.length ≤ 55 →
      (pad t total).length = 64 ∧
      pad t total = t ++ [0x80#8] ++ List.replicate (55 - t.length) 0#8 ++ be64bytes (bitLength t total) ∧
      digestOf x t total = compress x (pad t total)) ∧
    (56 ≤ t.length → t.length ≤ 63 →
      (pad t total).length = 128 ∧
      pad t total = t ++ [0x80#8] ++ List.replicate (119 - t.length) 0#8 ++ be64bytes (bitLength t total) ∧
      digestOf x t total = compress (compress x ((pad t total).take 64)) ((pad t total).drop 64))

/-- The message schedule of a block (44_compression.md R170, R171): 80 words, the first 16 its bytes big-endian, each
later one from the words 3, 8, 14 and 16 before it, rotated left by 1. -/
def Obligations.MessageScheduleWords : Prop :=
  ∀ b : List Byte, b.length = 64 →
    (messageSchedule b).length = 80 ∧
    (∀ t, t < 16 → (messageSchedule b).getD t 0 =
      b.getD (4 * t) 0 ++ b.getD (4 * t + 1) 0 ++ b.getD (4 * t + 2) 0 ++ b.getD (4 * t + 3) 0) ∧
    (∀ t, 16 ≤ t → t < 80 → (messageSchedule b).getD t 0 =
      ((messageSchedule b).getD (t - 3) 0 ^^^ (messageSchedule b).getD (t - 8) 0 ^^^
        (messageSchedule b).getD (t - 14) 0 ^^^ (messageSchedule b).getD (t - 16) 0).rotateLeft 1)

/-- The compression function is 80 rounds in increasing order over the message schedule, from the input registers, and
the feed-forward (44_compression.md R172, R174, R175). -/
def Obligations.CompressIsEightyRounds : Prop :=
  ∀ (x : Words5) (b : List Byte), b.length = 64 →
    compress x b =
      (let v := (List.range 80).foldl (fun v i => roundStep i ((messageSchedule b).getD i 0) v)
        ⟨x.w0, x.w1, x.w2, x.w3, x.w4⟩
       ⟨x.w0 + v.a, x.w1 + v.b, x.w2 + v.c, x.w3 + v.d, x.w4 + v.e⟩)

/-- One round (44_compression.md R173, R174, R176): the new a is the exact five-term sum modulo 2^32, and the others
move along, the old values being used throughout. -/
def Obligations.RoundIsTheFiveTermSum : Prop :=
  ∀ (i : Nat) (w : Word) (v : Vars), i ≤ 79 →
    (roundStep i w v).a.toNat =
      ((v.a.rotateLeft 5).toNat + (roundFK i v.b v.c v.d).1.toNat + v.e.toNat + (roundFK i v.b v.c v.d).2.toNat +
        w.toNat) % 2 ^ 32 ∧
    (roundStep i w v).b = v.a ∧ (roundStep i w v).c = v.b.rotateLeft 30 ∧ (roundStep i w v).d = v.c ∧
    (roundStep i w v).e = v.d

/-- The round function and constant of every round (44_compression.md R173), and their equivalent forms (R177): rounds
0..19 take each bit of c where b is 1 and of d where b is 0, rounds 40..59 the majority of the three bits. -/
def Obligations.RoundFunctionForms : Prop :=
  ∀ (i : Nat) (b c d : Word),
    (i ≤ 19 → roundFK i b c d = (d ^^^ (b &&& (c ^^^ d)), 0x5A827999#32)) ∧
    (20 ≤ i → i ≤ 39 → roundFK i b c d = (b ^^^ c ^^^ d, 0x6ED9EBA1#32)) ∧
    (40 ≤ i → i ≤ 59 → roundFK i b c d = ((b &&& c) ||| (b &&& d) ||| (c &&& d), 0x8F1BBCDC#32)) ∧
    (60 ≤ i → i ≤ 79 → roundFK i b c d = (b ^^^ c ^^^ d, 0xCA62C1D6#32)) ∧
    d ^^^ (b &&& (c ^^^ d)) = (b &&& c) ||| (~~~b &&& d) ∧
    (b &&& c) ||| (b &&& d) ||| (c &&& d) = (b &&& c) ^^^ (b &&& d) ^^^ (c &&& d) ∧
    ∀ j, j < 32 →
      (d ^^^ (b &&& (c ^^^ d))).getLsbD j = (if b.getLsbD j = true then c.getLsbD j else d.getLsbD j) ∧
      (((b &&& c) ||| (b &&& d) ||| (c &&& d)).getLsbD j = true ↔
        2 ≤ (b.getLsbD j).toNat + (c.getLsbD j).toNat + (d.getLsbD j).toNat)

/-- rotl(x, n) moves bit j of x to bit (j + n) mod 32 (44_compression.md R176, 00_scope.md R9). -/
def Obligations.RotlMovesBits : Prop :=
  ∀ (x : Word) (n j : Nat), 0 < n → n < 32 → j < 32 → (rotl x n).getLsbD ((j + n) % 32) = x.getLsbD j

/-! ## Bus accesses

`k` is the key of the next draw of an unspecified value, the model's own (log 2). -/

/-- The access checks, in their order (45_bus_access.md R192, R195; 10_state.md R41): an unmapped word, then a write to
HIN0..4 that is not one aligned 4-byte access, then any access that is not; an access that passes is to the register at
its own offset. -/
def Obligations.AccessChecksInOrder : Prop :=
  ∀ (off : BitVec 7) (size : Size) (isWrite : Bool),
    let word := off.toNat - off.toNat % 4
    if word ∈ [0x2C, 0x44, 0x48, 0x4C, 0x78, 0x7C] then checkAccess off size isWrite = .refuse .badAccess
    else if isWrite = true ∧ word ∈ [0x10, 0x14, 0x18, 0x1C, 0x20] ∧ ¬ (size = .word ∧ off.toNat % 4 = 0) then
      checkAccess off size isWrite = .refuse .invalidInputLength
    else if ¬ (size = .word ∧ off.toNat % 4 = 0) then checkAccess off size isWrite = .refuse .badAccess
    else ∃ r, checkAccess off size isWrite = .pass r ∧ r.offset = off

/-- A refused access records the error, by its number, if none is recorded and has no other effect; a refused read
returns 0 (45_bus_access.md R191; 60_exceptions.md R210, R211). That nothing is drawn is log 2. -/
def Obligations.RefusedAccessOnlyRecordsTheError : Prop :=
  ∀ (off : BitVec 7) (size : Size) (v : Word) (e : Engine) (k : DrawKey) (code : ErrorCode) (number : BitVec 8),
    (code, number) ∈ [(ErrorCode.illegalCmd, 0x01#8), (.cmdWhileBusy, 0x02#8), (.invalidInputLength, 0x03#8),
      (.badAccess, 0x04#8)] →
    (checkAccess off size false = .refuse code →
      busAccess (.read off size) e k =
        ⟨if e.err = true then e else { e with err := true, errcode := number }, some 0#32, k⟩) ∧
    (checkAccess off size true = .refuse code →
      busAccess (.write off size v) e k =
        ⟨if e.err = true then e else { e with err := true, errcode := number }, none, k⟩)

/-- One access reports at most one error, that of the first check that fails, by its number (60_exceptions.md R213,
R210): unmapped, BAD_ACCESS 0x04; a write to HIN0..4 that is not one aligned 4-byte write, INVALID_INPUT_LENGTH 0x03;
any other access that is not, BAD_ACCESS; a write to a read-only register, BAD_ACCESS; CMD with BUSY = 1,
CMD_WHILE_BUSY 0x02; CMD with an illegal word, ILLEGAL_CMD 0x01. An access none of them fails reports none. -/
def Obligations.EachAccessReportsItsFirstFailingCheck : Prop :=
  ∀ (a : Access) (e : Engine) (k : DrawKey), e.err = false →
    (∀ code number, errorOf a e = some code →
      (code, number) ∈ [(ErrorCode.illegalCmd, 0x01#8), (.cmdWhileBusy, 0x02#8), (.invalidInputLength, 0x03#8),
        (.badAccess, 0x04#8)] →
      (busAccess a e k).engine = { e with err := true, errcode := number }) ∧
    (errorOf a e = none → (busAccess a e k).engine.err = false)

/-- What a checked read returns with BUSY = 0, no state changing (45_bus_access.md R193; 10_state.md R33, R34, R36 to
R39). STATUS and HEX0..9 have statements of their own. -/
def Obligations.IdleReadsAreExact : Prop :=
  ∀ (e : Engine) (k : DrawKey), e.busy = false →
    busAccess (.read 0x00#7 .word) e k = ⟨e, some 0x53484131#32, k⟩ ∧
    busAccess (.read 0x04#7 .word) e k = ⟨e, some 0#32, k⟩ ∧
    busAccess (.read 0x0C#7 .word) e k = ⟨e, some 0#32, k⟩ ∧
    busAccess (.read 0x10#7 .word) e k = ⟨e, some e.hin.w0, k⟩ ∧
    busAccess (.read 0x14#7 .word) e k = ⟨e, some e.hin.w1, k⟩ ∧
    busAccess (.read 0x18#7 .word) e k = ⟨e, some e.hin.w2, k⟩ ∧
    busAccess (.read 0x1C#7 .word) e k = ⟨e, some e.hin.w3, k⟩ ∧
    busAccess (.read 0x20#7 .word) e k = ⟨e, some e.hin.w4, k⟩ ∧
    busAccess (.read 0x24#7 .word) e k = ⟨e, some (BitVec.ofNat 32 (e.total.toNat % 2 ^ 32)), k⟩ ∧
    busAccess (.read 0x28#7 .word) e k = ⟨e, some (BitVec.ofNat 32 (e.total.toNat / 2 ^ 32)), k⟩ ∧
    busAccess (.read 0x30#7 .word) e k = ⟨e, some e.digest.w0, k⟩ ∧
    busAccess (.read 0x34#7 .word) e k = ⟨e, some e.digest.w1, k⟩ ∧
    busAccess (.read 0x38#7 .word) e k = ⟨e, some e.digest.w2, k⟩ ∧
    busAccess (.read 0x3C#7 .word) e k = ⟨e, some e.digest.w3, k⟩ ∧
    busAccess (.read 0x40#7 .word) e k = ⟨e, some e.digest.w4, k⟩

/-- The fields of STATUS (10_state.md R35): the reserved ones read 0, BUSY, DVALID, ERR and ERRCODE read exactly at all
times, TAIL_LEN when BUSY = 0; reading changes no state of the engine. -/
def Obligations.StatusFields : Prop :=
  ∀ (e : Engine) (k : DrawKey), ∃ w d, busAccess (.read 0x08#7 .word) e k = ⟨e, some w, d⟩ ∧
    w.extractLsb' 22 10 = 0#10 ∧ w.extractLsb' 8 8 = e.errcode ∧ w.extractLsb' 3 5 = 0#5 ∧
    w.getLsbD 2 = e.err ∧ w.getLsbD 1 = e.dvalid ∧ w.getLsbD 0 = e.busy ∧
    (e.busy = false → w.extractLsb' 16 6 = e.tailLen)

/-- Character c of the 40-character hex digest is byte 3 - (c mod 4) of HEX(c div 4): the lowercase ASCII digit of the
c-th nibble of the DIGEST words, the most significant first (10_state.md R40). -/
def Obligations.HexDigestCharacters : Prop :=
  ∀ (e : Engine) (k : DrawKey) (c : Fin 40), e.busy = false →
    ∃ w, busAccess (.read (BitVec.ofNat 7 (0x50 + 4 * (c.val / 4))) .word) e k = ⟨e, some w, k⟩ ∧
      (let word := [e.digest.w0, e.digest.w1, e.digest.w2, e.digest.w3, e.digest.w4].getD (c.val / 8) 0
       let nibble := word.toNat / 16 ^ (7 - c.val % 8) % 16
       (w.extractLsb' (8 * (3 - c.val % 4)) 8).toNat =
         if nibble ≤ 9 then 0x30 + nibble else 0x61 + (nibble - 10))

/-- The 20-byte digest (10_state.md R39): byte c is bits 31-8(c mod 4) .. 24-8(c mod 4) of the word a Host reads from
DIGEST(c div 4) with BUSY = 0. -/
def Obligations.DigestBytesAreBigEndian : Prop :=
  ∀ (e : Engine) (k : DrawKey) (c : Fin 20), e.busy = false →
    e.digestBytes.length = 20 ∧
    ∃ w, busAccess (.read (BitVec.ofNat 7 (0x30 + 4 * (c.val / 4))) .word) e k = ⟨e, some w, k⟩ ∧
      (e.digestBytes.getD c.val 0).toNat = w.toNat / 256 ^ (3 - c.val % 4) % 256

/-- Reads while BUSY = 1 (70_reset_and_hazards.md R247): ID, CMD, DATA_IN and HIN0..4 read exactly; TOTAL_LO, TOTAL_HI,
DIGEST0..4 and HEX0..9 return a draw of their own, whatever it is, and STATUS its exact flags with a drawn TAIL_LEN; no
state of the engine changes. The draws are the
model's free values (log 2). -/
def Obligations.BusyReadsDraw : Prop :=
  ∀ (e : Engine) (k : DrawKey), e.busy = true →
    busAccess (.read 0x00#7 .word) e k = ⟨e, some 0x53484131#32, k⟩ ∧
    busAccess (.read 0x04#7 .word) e k = ⟨e, some 0#32, k⟩ ∧
    busAccess (.read 0x0C#7 .word) e k = ⟨e, some 0#32, k⟩ ∧
    (∀ n : Fin 5, busAccess (.read (BitVec.ofNat 7 (0x10 + 4 * n.val)) .word) e k =
      ⟨e, some ([e.hin.w0, e.hin.w1, e.hin.w2, e.hin.w3, e.hin.w4].getD n.val 0), k⟩) ∧
    busAccess (.read 0x08#7 .word) e k =
      ⟨e, some (0#10 ++ Config.freeTailLen k ++ e.errcode ++ 0#5 ++ BitVec.ofBool e.err ++ BitVec.ofBool e.dvalid ++
        BitVec.ofBool true), ⟨k.unit, k.count + 1⟩⟩ ∧
    (∀ off ∈ [0x24#7, 0x28#7, 0x30#7, 0x34#7, 0x38#7, 0x3C#7, 0x40#7, 0x50#7, 0x54#7, 0x58#7, 0x5C#7, 0x60#7,
        0x64#7, 0x68#7, 0x6C#7, 0x70#7, 0x74#7],
      busAccess (.read off .word) e k = ⟨e, some (Config.freeWord k), ⟨k.unit, k.count + 1⟩⟩)

/-- A checked write of STATUS, DATA_IN, HINn or a read-only register, BUSY = 1 or not (45_bus_access.md R194, R196):
bit 2 clears the error record, a staging register takes the value, a read-only one records BAD_ACCESS if no error is
recorded. -/
def Obligations.CheckedWrites : Prop :=
  ∀ (e : Engine) (v : Word) (k : DrawKey),
    busAccess (.write 0x08#7 .word v) e k =
      ⟨if v.getLsbD 2 = true then { e with err := false, errcode := 0x00#8 } else e, none, k⟩ ∧
    busAccess (.write 0x0C#7 .word v) e k = ⟨{ e with dataIn := v }, none, k⟩ ∧
    busAccess (.write 0x10#7 .word v) e k = ⟨{ e with hin := { e.hin with w0 := v } }, none, k⟩ ∧
    busAccess (.write 0x14#7 .word v) e k = ⟨{ e with hin := { e.hin with w1 := v } }, none, k⟩ ∧
    busAccess (.write 0x18#7 .word v) e k = ⟨{ e with hin := { e.hin with w2 := v } }, none, k⟩ ∧
    busAccess (.write 0x1C#7 .word v) e k = ⟨{ e with hin := { e.hin with w3 := v } }, none, k⟩ ∧
    busAccess (.write 0x20#7 .word v) e k = ⟨{ e with hin := { e.hin with w4 := v } }, none, k⟩ ∧
    (∀ off ∈ [0x00#7, 0x24#7, 0x28#7, 0x30#7, 0x34#7, 0x38#7, 0x3C#7, 0x40#7, 0x50#7, 0x54#7, 0x58#7, 0x5C#7,
        0x60#7, 0x64#7, 0x68#7, 0x6C#7, 0x70#7, 0x74#7],
      busAccess (.write off .word v) e k =
        ⟨if e.err = true then e else { e with err := true, errcode := 0x04#8 }, none, k⟩)

/-- A checked write of CMD (40_commands.md R100, R101; 60_exceptions.md R212, R214): while busy the word is discarded
with CMD_WHILE_BUSY, legal or not; an illegal word is discarded with ILLEGAL_CMD; a legal one is accepted, with DATA_IN
and HIN0..4 latched, BUSY set and DVALID cleared unless it is NOP, whether an error is recorded or not. -/
def Obligations.CmdWriteAcceptance : Prop :=
  ∀ (e : Engine) (c : Word) (k : DrawKey),
    busAccess (.write 0x04#7 .word c) e k =
      ⟨if e.busy = true then (if e.err = true then e else { e with err := true, errcode := 0x02#8 })
       else match decode c with
        | .legal i => { e with
            pending := some ⟨i, e.dataIn, e.hin⟩
            busy := true
            dvalid := if i = .nop then e.dvalid else false }
        | .illegal _ => if e.err = true then e else { e with err := true, errcode := 0x01#8 },
       none, k⟩

/-- While BUSY = 1 no Host access, whatever it is, changes the pending command, BUSY, DVALID, the HashState or DIGEST
(40_commands.md R101, R104; 70_reset_and_hazards.md R244, R246). -/
def Obligations.BusyAccessKeepsThePendingCommand : Prop :=
  ∀ (a : Access) (e : Engine) (k : DrawKey), e.busy = true →
    let f := (busAccess a e k).engine
    f.pending = e.pending ∧ f.busy = true ∧ f.dvalid = e.dvalid ∧ f.h = e.h ∧ f.tail = e.tail ∧
      f.tailLen = e.tailLen ∧ f.total = e.total ∧ f.digest = e.digest

/-- Once an error is recorded every access keeps its code, but a write of STATUS with bit 2 set (60_exceptions.md R211,
R219). -/
def Obligations.FirstErrorIsKept : Prop :=
  ∀ (a : Access) (e : Engine) (k : DrawKey), e.err = true →
    (∀ v, a = .write 0x08#7 .word v → v.getLsbD 2 = false) →
    (busAccess a e k).engine.err = true ∧ (busAccess a e k).engine.errcode = e.errcode

/-! ## Rules of the whole machine -/

/-- H is written only by reset, INIT, SETREG and an UPDATE that fills the tail (10_state.md R22). -/
def Obligations.HashRegistersWrittenOnlyByTheirCommands : Prop :=
  ∀ s t : State, step s = .next t → t.engine.h ≠ s.engine.h →
    s.nextAgent = .reset ∨
      (s.nextAgent = .engine ∧ ∃ p, s.engine.pending = some p ∧
        (p.cmd = .init ∨ p.cmd = .setreg ∨
          ∃ n, p.cmd = .update n ∧ 64 ≤ s.engine.tailLen.toNat + n.toNat))

/-- TOTAL changes only in three ways (10_state.md R26): by 64 modulo 2^64 when an UPDATE absorbs a block, to 0 on INIT,
to 0 on reset. -/
def Obligations.TotalChangesInThreeWays : Prop :=
  ∀ s t : State, step s = .next t → t.engine.total ≠ s.engine.total →
    (s.nextAgent = .reset ∧ t.engine.total = 0#64) ∨
      (s.nextAgent = .engine ∧ ∃ p, s.engine.pending = some p ∧
        ((p.cmd = .init ∧ t.engine.total = 0#64) ∨
          (∃ n, p.cmd = .update n) ∧ t.engine.total.toNat = (s.engine.total.toNat + 64) % 2 ^ 64))

/-- The flags are written only by their rules (10_state.md R30, R31; 60_exceptions.md R210, R217, R219). BUSY is set
only by the acceptance of a command and cleared only by its performance or reset; DVALID is set only by the performance
of FINALIZE and cleared only by reset and the acceptance of INIT, UPDATE, SETREG or FINALIZE; ERR is set only by an
access that a check fails, with that error's number, and cleared only by reset and a STATUS write with bit 2; ERRCODE
changes only by these; an Engine step changes neither. -/
def Obligations.FlagsWrittenOnlyByTheirRules : Prop :=
  ∀ s t : State, step s = .next t →
    (s.engine.busy = false → t.engine.busy = true →
      ∃ c i, accessOf s = some (.write 0x04#7 .word c) ∧ decode c = .legal i ∧
        t.engine.pending = some ⟨i, s.engine.dataIn, s.engine.hin⟩) ∧
    (s.engine.busy = true → t.engine.busy = false →
      s.nextAgent = .reset ∨ (s.nextAgent = .engine ∧ s.engine.pending ≠ none)) ∧
    (s.engine.dvalid = false → t.engine.dvalid = true →
      s.nextAgent = .engine ∧ ∃ p, s.engine.pending = some p ∧ p.cmd = .finalize) ∧
    (s.engine.dvalid = true → t.engine.dvalid = false →
      s.nextAgent = .reset ∨
        (s.engine.busy = false ∧ ∃ c i, accessOf s = some (.write 0x04#7 .word c) ∧ decode c = .legal i ∧ i ≠ .nop)) ∧
    (s.engine.err = false → t.engine.err = true →
      ∃ a code, accessOf s = some a ∧ errorOf a s.engine = some code ∧
        (code, t.engine.errcode) ∈ [(ErrorCode.illegalCmd, 0x01#8), (.cmdWhileBusy, 0x02#8),
          (.invalidInputLength, 0x03#8), (.badAccess, 0x04#8)]) ∧
    (s.engine.err = true → t.engine.err = false →
      s.nextAgent = .reset ∨ ∃ v, accessOf s = some (.write 0x08#7 .word v) ∧ v.getLsbD 2 = true) ∧
    (t.engine.errcode ≠ s.engine.errcode →
      s.nextAgent = .reset ∨ (∃ v, accessOf s = some (.write 0x08#7 .word v) ∧ v.getLsbD 2 = true) ∨
        (s.engine.err = false ∧ t.engine.err = true)) ∧
    (s.nextAgent = .engine → t.engine.err = s.engine.err ∧ t.engine.errcode = s.engine.errcode)

/-- Each rule writes the flags it names and no other (10_state.md R30, R31; 40_commands.md R101, R102; 45_bus_access.md
R194; 60_exceptions.md R210, R211, R219): a reset, a performance, the acceptance of a command, an access that a check
fails, a STATUS write with bit 2. -/
def Obligations.EachRuleWritesItsFlags : Prop :=
  ∀ s : State, ∃ t, step s = .next t ∧
    (s.nextAgent = .reset → t.engine.busy = false ∧ t.engine.dvalid = false ∧ t.engine.err = false ∧
      t.engine.errcode = 0x00#8) ∧
    (∀ p, s.nextAgent = .engine → s.engine.pending = some p →
      t.engine.busy = false ∧ t.engine.dvalid = (if p.cmd = .finalize then true else s.engine.dvalid) ∧
        t.engine.err = s.engine.err ∧ t.engine.errcode = s.engine.errcode) ∧
    (∀ c i, accessOf s = some (.write 0x04#7 .word c) → s.engine.busy = false → decode c = .legal i →
      t.engine.busy = true ∧ t.engine.dvalid = (if i = .nop then s.engine.dvalid else false) ∧
        t.engine.err = s.engine.err ∧ t.engine.errcode = s.engine.errcode) ∧
    (∀ a code number, accessOf s = some a → errorOf a s.engine = some code →
      (code, number) ∈ [(ErrorCode.illegalCmd, 0x01#8), (.cmdWhileBusy, 0x02#8), (.invalidInputLength, 0x03#8),
        (.badAccess, 0x04#8)] →
      t.engine.busy = s.engine.busy ∧ t.engine.dvalid = s.engine.dvalid ∧ t.engine.err = true ∧
        t.engine.errcode = if s.engine.err = true then s.engine.errcode else number) ∧
    (∀ v, accessOf s = some (.write 0x08#7 .word v) → v.getLsbD 2 = true →
      t.engine.busy = s.engine.busy ∧ t.engine.dvalid = s.engine.dvalid ∧ t.engine.err = false ∧
        t.engine.errcode = 0x00#8)

/-- TAIL's bytes at and above TAIL_LEN are never read (10_state.md R25): two machines alike but for them answer states
alike but for them, the Hosts having received the same values. -/
def Obligations.UnusedTailBytesNeverMatter : Prop :=
  ∀ s t s' t' : State, AlikeButUnusedTail s.engine t.engine → s.hosts = t.hosts → s.schedule = t.schedule →
    s.draws = t.draws → step s = .next s' → step t = .next t' →
    AlikeButUnusedTail s'.engine t'.engine ∧ s'.hosts = t'.hosts ∧ s'.schedule = t'.schedule ∧ s'.draws = t'.draws

/-! ## Hosts -/

/-- A Host's step is its next access, whole: the engine is what the access leaves, a returned value is received, the
access is used up, and no other Host changes (20_memory.md R57, R61). That a Host keeps the values its reads returned,
the newest first, is the model's choice (log 12), and the draw key its own (log 2). -/
def Obligations.HostStepIsItsNextAccess : Prop :=
  ∀ (s : State) (k : Nat) (h : HostAgent) (a : Access) (rest : List HostOp),
    s.nextAgent = .host k → s.hosts[k]? = some h → h.program = .access a :: rest →
    ∃ t, step s = .next t ∧
      (let r := busAccess a s.engine s.draws
       t.engine = r.engine ∧ t.draws = r.draws ∧
         t.hosts[k]? = some ⟨rest, r.reply.toList ++ h.received⟩ ∧
         ∀ j, j ≠ k → t.hosts[j]? = s.hosts[j]?)

/-- WAIT is a read of STATUS, which changes no engine, and ends when BUSY reads 0, else it stands for the Host's next
step again; no other Host changes (30_encoding.md R76). That each poll's word is kept, the newest first, is the model's
choice (log 12), and the draw key its own (log 2). -/
def Obligations.WaitPollsUntilNotBusy : Prop :=
  ∀ (s : State) (k : Nat) (h : HostAgent) (rest : List HostOp),
    s.nextAgent = .host k → s.hosts[k]? = some h → h.program = .wait :: rest →
    ∃ t w, step s = .next t ∧ t.engine = s.engine ∧
      busAccess (.read 0x08#7 .word) s.engine s.draws = ⟨s.engine, some w, t.draws⟩ ∧
      w.getLsbD 0 = s.engine.busy ∧
      t.hosts[k]? = some ⟨if s.engine.busy = true then .wait :: rest else rest, w :: h.received⟩ ∧
      ∀ j, j ≠ k → t.hosts[j]? = s.hosts[j]?

/-- FEED's expansion (30_encoding.md R77): for each group of up to 4 bytes, in order, WR DATA_IN of the group padded
with zero bytes, CMD UPDATE of its length, WAIT; none for no bytes. -/
def Obligations.FeedExpansion : Prop :=
  ∀ bytes : List Byte,
    (HostLine.feed bytes).expand = (List.range ((bytes.length + 3) / 4)).flatMap fun j =>
      let g := (bytes.drop (4 * j)).take 4
      [.access (.write 0x0C#7 .word (g.getD 0 0 ++ g.getD 1 0 ++ g.getD 2 0 ++ g.getD 3 0)),
       .access (.write 0x04#7 .word (BitVec.ofNat 32 (0x00000002 + 256 * g.length))), .wait]

/-- The other pseudo-instructions and the basic lines (30_encoding.md R76, R77; 10_state.md R32): LOADH, DIGEST,
HEXDIGEST and NEW; WR and RD of each register at its offset; CMD of each command's word; WAIT. -/
def Obligations.HostLineExpansions : Prop :=
  (∀ v : Words5, (HostLine.loadh v).expand =
    [.access (.write 0x10#7 .word v.w0), .access (.write 0x14#7 .word v.w1), .access (.write 0x18#7 .word v.w2),
     .access (.write 0x1C#7 .word v.w3), .access (.write 0x20#7 .word v.w4),
     .access (.write 0x04#7 .word 0x00000004#32), .wait]) ∧
  HostLine.digest.expand =
    [.access (.write 0x04#7 .word 0x00000003#32), .wait, .access (.read 0x30#7 .word), .access (.read 0x34#7 .word),
     .access (.read 0x38#7 .word), .access (.read 0x3C#7 .word), .access (.read 0x40#7 .word)] ∧
  HostLine.hexdigest.expand =
    [.access (.write 0x04#7 .word 0x00000003#32), .wait, .access (.read 0x50#7 .word), .access (.read 0x54#7 .word),
     .access (.read 0x58#7 .word), .access (.read 0x5C#7 .word), .access (.read 0x60#7 .word),
     .access (.read 0x64#7 .word), .access (.read 0x68#7 .word), .access (.read 0x6C#7 .word),
     .access (.read 0x70#7 .word), .access (.read 0x74#7 .word)] ∧
  HostLine.newMessage.expand = [.access (.write 0x04#7 .word 0x00000001#32), .wait] ∧
  HostLine.wait.expand = [.wait] ∧
  (∀ line ∈ [(Reg.id, 0x00#7), (.cmd, 0x04#7), (.status, 0x08#7), (.dataIn, 0x0C#7), (.hin 0, 0x10#7),
      (.hin 1, 0x14#7), (.hin 2, 0x18#7), (.hin 3, 0x1C#7), (.hin 4, 0x20#7), (.totalLo, 0x24#7), (.totalHi, 0x28#7),
      (.digest 0, 0x30#7), (.digest 1, 0x34#7), (.digest 2, 0x38#7), (.digest 3, 0x3C#7), (.digest 4, 0x40#7),
      (.hex 0, 0x50#7), (.hex 1, 0x54#7), (.hex 2, 0x58#7), (.hex 3, 0x5C#7), (.hex 4, 0x60#7), (.hex 5, 0x64#7),
      (.hex 6, 0x68#7), (.hex 7, 0x6C#7), (.hex 8, 0x70#7), (.hex 9, 0x74#7)],
    (∀ v : Word, (HostLine.wr line.1 v).expand = [.access (.write line.2 .word v)]) ∧
      (HostLine.rd line.1).expand = [.access (.read line.2 .word)]) ∧
  (∀ line ∈ [(Instr.nop, 0x00000000#32), (.init, 0x00000001#32), (.update 0#3, 0x00000002#32),
      (.update 1#3, 0x00000102#32), (.update 2#3, 0x00000202#32), (.update 3#3, 0x00000302#32),
      (.update 4#3, 0x00000402#32), (.finalize, 0x00000003#32), (.setreg, 0x00000004#32)],
    (HostLine.cmd line.1).expand = [.access (.write 0x04#7 .word line.2)])

/-! ## Platform -/

/-- A step of one instance never writes another's state (60_exceptions.md R224). That a platform is a list of machines,
each with its own Hosts and its own schedule, is the model's choice (log 9). -/
def Obligations.InstancesShareNoState : Prop :=
  ∀ (p : Platform) (k : Nat), ∃ q, platformStep k p = .next q ∧ q.length = p.length ∧
    (∀ j, j ≠ k → q[j]? = p[j]?) ∧
    (∀ slot : Slot, p[k]? = some slot → ∃ t, step slot.machine = .next t ∧ q[k]? = some ⟨slot.base, t⟩)

/-- An access outside every window reaches no engine; one inside a window is that instance's access, whole, at the
offset from its base, when the bases are distinct multiples of 0x80 (20_memory.md R53). The platform's form is the
model's own (log 9), and the draw key (log 2). -/
def Obligations.AccessReachesOnlyItsWindow : Prop :=
  ∀ (p : Platform) (addr : Nat) (size : Size) (v : Word), windowsApart p = true →
    ((∀ slot ∈ p, ¬ (slot.base ≤ addr ∧ addr < slot.base + 0x80)) →
      platformRead addr size p = (p, none) ∧ platformWrite addr size v p = p) ∧
    (∀ (k : Nat) (slot : Slot), p[k]? = some slot → slot.base ≤ addr → addr < slot.base + 0x80 →
      let m := slot.machine
      let r := busAccess (.read (BitVec.ofNat 7 (addr % 0x80)) size) m.engine m.draws
      let w := busAccess (.write (BitVec.ofNat 7 (addr % 0x80)) size v) m.engine m.draws
      (platformRead addr size p).2 = r.reply ∧
      (platformRead addr size p).1[k]? = some ⟨slot.base, { m with engine := r.engine, draws := r.draws }⟩ ∧
      (platformWrite addr size v p)[k]? = some ⟨slot.base, { m with engine := w.engine, draws := w.draws }⟩ ∧
      ∀ j, j ≠ k → (platformRead addr size p).1[j]? = p[j]? ∧ (platformWrite addr size v p)[j]? = p[j]?)

/-- The names in the instances' draw keys are kept apart, and a step's draw count never falls (70_reset_and_hazards.md
R247; 60_exceptions.md R224): a step keeps its instance's name and never counts back; the names are distinct at reset,
and steps and accesses of a platform keep them and the windows so. That a drawing read counts itself is BusyReadsDraw,
and that a platform access leaves the count its bus access leaves is AccessReachesOnlyItsWindow. The keys are the
model's own (log 2, log 9). -/
def Obligations.PlatformKeepsDrawsApart : Prop :=
  (∀ s t : State, step s = .next t → t.draws.unit = s.draws.unit ∧ s.draws.count ≤ t.draws.count) ∧
  (∀ bases : List Nat, bases.Nodup → (∀ b ∈ bases, b % 0x80 = 0) → platformWf (platformReset bases) = true) ∧
  (∀ p : Platform, platformWf p = true →
    (∀ k, ∃ q, platformStep k p = .next q ∧ platformWf q = true) ∧
    (∀ addr size v, platformWf (platformRead addr size p).1 = true ∧ platformWf (platformWrite addr size v p) = true))
end

