-- ==== Sys2Proof/Laws/Bytes.lean ====
section
/-! SUPPORT. The small lemmas of byte sequences, blocks, the schedule and the padding. -/

namespace Sys2Proof.Machine

@[simp] theorem be32bytes_length (w : Word) : (be32bytes w).length = 4 := rfl

@[simp] theorem be64bytes_length (v : BitVec 64) : (be64bytes v).length = 8 := rfl

/-- `be32bytes` is the inverse of `be32` (00_scope.md R10). -/
theorem be32bytes_be32 (b0 b1 b2 b3 : Byte) : be32bytes (be32 b0 b1 b2 b3) = [b0, b1, b2, b3] := by
  simp only [be32bytes, be32, List.cons.injEq, and_true]
  refine ⟨?_, ?_, ?_, ?_⟩ <;>
    (apply BitVec.eq_of_getLsbD_eq; intro i hi; simp; grind)

@[simp] theorem blocksOf_nil : blocksOf [] = [] := rfl

@[simp] theorem blocksOf_length (m : List Byte) : (blocksOf m).length = m.length / 64 := by simp [blocksOf]

/-- Every block of a byte sequence has 64 bytes. -/
theorem block_length {m b : List Byte} (h : b ∈ blocksOf m) : b.length = 64 := by
  simp only [blocksOf, List.mem_map, List.mem_range] at h
  obtain ⟨j, hj, rfl⟩ := h
  simp; omega

/-- A byte sequence of fewer than 64 bytes holds no block. -/
theorem blocksOf_short {m : List Byte} (h : m.length < 64) : blocksOf m = [] := by
  simp [blocksOf, Nat.div_eq_of_lt h]

/-- The first block is in front; the rest are the blocks of what follows it. -/
theorem blocksOf_append {b m : List Byte} (h : b.length = 64) : blocksOf (b ++ m) = b :: blocksOf m := by
  have n : (b ++ m).length / 64 = m.length / 64 + 1 := by simp [h]
  rw [blocksOf, n, List.range_succ_eq_map, List.map_cons, List.map_map, blocksOf]
  congr 1
  · simp [h]
  · apply List.map_congr_left
    intro j _
    have e : 64 * (j + 1) = 64 * j + b.length := by omega
    simp only [Function.comp_apply, Nat.succ_eq_add_one, e]
    rw [Nat.add_comm, List.drop_append, List.drop_of_length_le (by omega)]
    simp

/-- Blocks of whole blocks followed by more. -/
theorem blocksOf_append_of_dvd {a : List Byte} (m : List Byte) (h : a.length % 64 = 0) :
    blocksOf (a ++ m) = blocksOf a ++ blocksOf m := by
  induction n : a.length / 64 generalizing a with
  | zero =>
    have : a.length = 0 := by omega
    simp [List.eq_nil_of_length_eq_zero this]
  | succ k ih =>
    have e : a = a.take 64 ++ a.drop 64 := (List.take_append_drop 64 a).symm
    have l : (a.take 64).length = 64 := by simp; omega
    rw [e, List.append_assoc, blocksOf_append l, blocksOf_append l, ih (by simp; omega) (by simp; omega)]
    rfl

@[simp] theorem expandSchedule_length (n : Nat) (ws : List Word) :
    (expandSchedule n ws).length = n + ws.length := by
  induction n generalizing ws with
  | zero => simp [expandSchedule]
  | succ n ih => rw [expandSchedule, ih]; simp; omega

/-- The padding's zero count as a natural remainder. -/
theorem zeroCount_eq (t : List Byte) : zeroCount t = (55 + 63 * t.length) % 64 := by
  unfold zeroCount; omega

/-- The padded message is a whole number of blocks. -/
theorem pad_length_mod (t : List Byte) (total : BitVec 64) : (pad t total).length % 64 = 0 := by
  simp [pad, zeroCount_eq]; omega

@[simp] theorem updateBytes_length (n : BitVec 3) (data : Word) :
    (updateBytes n data).length = min n.toNat 4 := by simp [updateBytes]

end Sys2Proof.Machine
end

