-- ==== Sys2Proof/Laws/State.lean ====
section
/-! SUPPORT. What each update of the state does to each field, so that no proof unfolds a record update. -/

namespace Sys2Proof.Machine

@[simp] theorem Engine.clearError_h (e : Engine) : e.clearError.h = e.h := rfl
@[simp] theorem Engine.clearError_tail (e : Engine) : e.clearError.tail = e.tail := rfl
@[simp] theorem Engine.clearError_tailLen (e : Engine) : e.clearError.tailLen = e.tailLen := rfl
@[simp] theorem Engine.clearError_total (e : Engine) : e.clearError.total = e.total := rfl
@[simp] theorem Engine.clearError_dataIn (e : Engine) : e.clearError.dataIn = e.dataIn := rfl
@[simp] theorem Engine.clearError_hin (e : Engine) : e.clearError.hin = e.hin := rfl
@[simp] theorem Engine.clearError_pending (e : Engine) : e.clearError.pending = e.pending := rfl
@[simp] theorem Engine.clearError_busy (e : Engine) : e.clearError.busy = e.busy := rfl
@[simp] theorem Engine.clearError_dvalid (e : Engine) : e.clearError.dvalid = e.dvalid := rfl
@[simp] theorem Engine.clearError_err (e : Engine) : e.clearError.err = false := rfl
@[simp] theorem Engine.clearError_errcode (e : Engine) : e.clearError.errcode = 0x00#8 := rfl
@[simp] theorem Engine.clearError_digest (e : Engine) : e.clearError.digest = e.digest := rfl

@[simp] theorem Engine.accept_h (i : Instr) (e : Engine) : (e.accept i).h = e.h := rfl
@[simp] theorem Engine.accept_tail (i : Instr) (e : Engine) : (e.accept i).tail = e.tail := rfl
@[simp] theorem Engine.accept_tailLen (i : Instr) (e : Engine) : (e.accept i).tailLen = e.tailLen := rfl
@[simp] theorem Engine.accept_total (i : Instr) (e : Engine) : (e.accept i).total = e.total := rfl
@[simp] theorem Engine.accept_dataIn (i : Instr) (e : Engine) : (e.accept i).dataIn = e.dataIn := rfl
@[simp] theorem Engine.accept_hin (i : Instr) (e : Engine) : (e.accept i).hin = e.hin := rfl
@[simp] theorem Engine.accept_pending (i : Instr) (e : Engine) : (e.accept i).pending = some (e.latch i) := rfl
@[simp] theorem Engine.accept_busy (i : Instr) (e : Engine) : (e.accept i).busy = true := rfl
@[simp] theorem Engine.accept_dvalid (i : Instr) (e : Engine) : (e.accept i).dvalid = dvalidAfterAccept i e.dvalid := rfl
@[simp] theorem Engine.accept_err (i : Instr) (e : Engine) : (e.accept i).err = e.err := rfl
@[simp] theorem Engine.accept_errcode (i : Instr) (e : Engine) : (e.accept i).errcode = e.errcode := rfl
@[simp] theorem Engine.accept_digest (i : Instr) (e : Engine) : (e.accept i).digest = e.digest := rfl

@[simp] theorem Engine.retire_h (e : Engine) : e.retire.h = e.h := rfl
@[simp] theorem Engine.retire_tail (e : Engine) : e.retire.tail = e.tail := rfl
@[simp] theorem Engine.retire_tailLen (e : Engine) : e.retire.tailLen = e.tailLen := rfl
@[simp] theorem Engine.retire_total (e : Engine) : e.retire.total = e.total := rfl
@[simp] theorem Engine.retire_dataIn (e : Engine) : e.retire.dataIn = e.dataIn := rfl
@[simp] theorem Engine.retire_hin (e : Engine) : e.retire.hin = e.hin := rfl
@[simp] theorem Engine.retire_pending (e : Engine) : e.retire.pending = none := rfl
@[simp] theorem Engine.retire_busy (e : Engine) : e.retire.busy = false := rfl
@[simp] theorem Engine.retire_dvalid (e : Engine) : e.retire.dvalid = e.dvalid := rfl
@[simp] theorem Engine.retire_err (e : Engine) : e.retire.err = e.err := rfl
@[simp] theorem Engine.retire_errcode (e : Engine) : e.retire.errcode = e.errcode := rfl
@[simp] theorem Engine.retire_digest (e : Engine) : e.retire.digest = e.digest := rfl

@[simp] theorem Engine.freshHashState_h (e : Engine) : e.freshHashState.h = iv := rfl
@[simp] theorem Engine.freshHashState_tail (e : Engine) : e.freshHashState.tail = e.tail := rfl
@[simp] theorem Engine.freshHashState_tailLen (e : Engine) : e.freshHashState.tailLen = 0#6 := rfl
@[simp] theorem Engine.freshHashState_total (e : Engine) : e.freshHashState.total = 0#64 := rfl
@[simp] theorem Engine.freshHashState_dataIn (e : Engine) : e.freshHashState.dataIn = e.dataIn := rfl
@[simp] theorem Engine.freshHashState_hin (e : Engine) : e.freshHashState.hin = e.hin := rfl
@[simp] theorem Engine.freshHashState_pending (e : Engine) : e.freshHashState.pending = e.pending := rfl
@[simp] theorem Engine.freshHashState_busy (e : Engine) : e.freshHashState.busy = e.busy := rfl
@[simp] theorem Engine.freshHashState_dvalid (e : Engine) : e.freshHashState.dvalid = e.dvalid := rfl
@[simp] theorem Engine.freshHashState_err (e : Engine) : e.freshHashState.err = e.err := rfl
@[simp] theorem Engine.freshHashState_errcode (e : Engine) : e.freshHashState.errcode = e.errcode := rfl
@[simp] theorem Engine.freshHashState_digest (e : Engine) : e.freshHashState.digest = e.digest := rfl

@[simp] theorem Engine.absorb_h (e : Engine) : e.absorb.h = compress e.h e.tail.toList := rfl
@[simp] theorem Engine.absorb_tail (e : Engine) : e.absorb.tail = e.tail := rfl
@[simp] theorem Engine.absorb_tailLen (e : Engine) : e.absorb.tailLen = 0#6 := rfl
@[simp] theorem Engine.absorb_total (e : Engine) : e.absorb.total = e.total + 64#64 := rfl
@[simp] theorem Engine.absorb_dataIn (e : Engine) : e.absorb.dataIn = e.dataIn := rfl
@[simp] theorem Engine.absorb_hin (e : Engine) : e.absorb.hin = e.hin := rfl
@[simp] theorem Engine.absorb_pending (e : Engine) : e.absorb.pending = e.pending := rfl
@[simp] theorem Engine.absorb_busy (e : Engine) : e.absorb.busy = e.busy := rfl
@[simp] theorem Engine.absorb_dvalid (e : Engine) : e.absorb.dvalid = e.dvalid := rfl
@[simp] theorem Engine.absorb_err (e : Engine) : e.absorb.err = e.err := rfl
@[simp] theorem Engine.absorb_errcode (e : Engine) : e.absorb.errcode = e.errcode := rfl
@[simp] theorem Engine.absorb_digest (e : Engine) : e.absorb.digest = e.digest := rfl

@[simp] theorem Engine.storeDigest_h (e : Engine) : e.storeDigest.h = e.h := rfl
@[simp] theorem Engine.storeDigest_tail (e : Engine) : e.storeDigest.tail = e.tail := rfl
@[simp] theorem Engine.storeDigest_tailLen (e : Engine) : e.storeDigest.tailLen = e.tailLen := rfl
@[simp] theorem Engine.storeDigest_total (e : Engine) : e.storeDigest.total = e.total := rfl
@[simp] theorem Engine.storeDigest_dataIn (e : Engine) : e.storeDigest.dataIn = e.dataIn := rfl
@[simp] theorem Engine.storeDigest_hin (e : Engine) : e.storeDigest.hin = e.hin := rfl
@[simp] theorem Engine.storeDigest_pending (e : Engine) : e.storeDigest.pending = e.pending := rfl
@[simp] theorem Engine.storeDigest_busy (e : Engine) : e.storeDigest.busy = e.busy := rfl
@[simp] theorem Engine.storeDigest_dvalid (e : Engine) : e.storeDigest.dvalid = true := rfl
@[simp] theorem Engine.storeDigest_err (e : Engine) : e.storeDigest.err = e.err := rfl
@[simp] theorem Engine.storeDigest_errcode (e : Engine) : e.storeDigest.errcode = e.errcode := rfl
@[simp] theorem Engine.storeDigest_digest (e : Engine) : e.storeDigest.digest = e.currentDigest := rfl

@[simp] theorem Engine.loadHash_h (x : Words5) (e : Engine) : (e.loadHash x).h = x := rfl
@[simp] theorem Engine.loadHash_tail (x : Words5) (e : Engine) : (e.loadHash x).tail = e.tail := rfl
@[simp] theorem Engine.loadHash_tailLen (x : Words5) (e : Engine) : (e.loadHash x).tailLen = e.tailLen := rfl
@[simp] theorem Engine.loadHash_total (x : Words5) (e : Engine) : (e.loadHash x).total = e.total := rfl
@[simp] theorem Engine.loadHash_dataIn (x : Words5) (e : Engine) : (e.loadHash x).dataIn = e.dataIn := rfl
@[simp] theorem Engine.loadHash_hin (x : Words5) (e : Engine) : (e.loadHash x).hin = e.hin := rfl
@[simp] theorem Engine.loadHash_pending (x : Words5) (e : Engine) : (e.loadHash x).pending = e.pending := rfl
@[simp] theorem Engine.loadHash_busy (x : Words5) (e : Engine) : (e.loadHash x).busy = e.busy := rfl
@[simp] theorem Engine.loadHash_dvalid (x : Words5) (e : Engine) : (e.loadHash x).dvalid = e.dvalid := rfl
@[simp] theorem Engine.loadHash_err (x : Words5) (e : Engine) : (e.loadHash x).err = e.err := rfl
@[simp] theorem Engine.loadHash_errcode (x : Words5) (e : Engine) : (e.loadHash x).errcode = e.errcode := rfl
@[simp] theorem Engine.loadHash_digest (x : Words5) (e : Engine) : (e.loadHash x).digest = e.digest := rfl

@[simp] theorem State.onEngine_engine (g : Engine → Engine) (s : State) : (s.onEngine g).engine = g s.engine := rfl
@[simp] theorem State.onEngine_hosts (g : Engine → Engine) (s : State) : (s.onEngine g).hosts = s.hosts := rfl
@[simp] theorem State.onEngine_schedule (g : Engine → Engine) (s : State) : (s.onEngine g).schedule = s.schedule := rfl
@[simp] theorem State.onEngine_draws (g : Engine → Engine) (s : State) : (s.onEngine g).draws = s.draws := rfl

@[simp] theorem State.advance_engine (s : State) : s.advance.engine = s.engine := rfl
@[simp] theorem State.advance_hosts (s : State) : s.advance.hosts = s.hosts := rfl
@[simp] theorem State.advance_schedule (s : State) : s.advance.schedule = s.schedule.tail := rfl
@[simp] theorem State.advance_draws (s : State) : s.advance.draws = s.draws := rfl

@[simp] theorem State.resetEngine_engine (s : State) : s.resetEngine.engine = Engine.reset := rfl
@[simp] theorem State.resetEngine_hosts (s : State) : s.resetEngine.hosts = s.hosts := rfl
@[simp] theorem State.resetEngine_schedule (s : State) : s.resetEngine.schedule = s.schedule := rfl
@[simp] theorem State.resetEngine_draws (s : State) : s.resetEngine.draws = s.draws := rfl

@[simp] theorem Engine.latch_cmd (i : Instr) (e : Engine) : (e.latch i).cmd = i := rfl
@[simp] theorem Engine.latch_data (i : Instr) (e : Engine) : (e.latch i).data = e.dataIn := rfl
@[simp] theorem Engine.latch_hin (i : Instr) (e : Engine) : (e.latch i).hin = e.hin := rfl

end Sys2Proof.Machine
end

