-- ==== Sys2Proof/Laws/Ops.lean ====
section
/-! SUPPORT. What each shared operation can do, said once: raising an error, pushing stream bytes, performing. -/

namespace Sys2Proof.Machine

@[simp] theorem Engine.raiseError_h (c : ErrorCode) (e : Engine) : (e.raiseError c).h = e.h := by
  unfold Engine.raiseError; split <;> rfl

@[simp] theorem Engine.raiseError_tail (c : ErrorCode) (e : Engine) : (e.raiseError c).tail = e.tail := by
  unfold Engine.raiseError; split <;> rfl

@[simp] theorem Engine.raiseError_tailLen (c : ErrorCode) (e : Engine) : (e.raiseError c).tailLen = e.tailLen := by
  unfold Engine.raiseError; split <;> rfl

@[simp] theorem Engine.raiseError_total (c : ErrorCode) (e : Engine) : (e.raiseError c).total = e.total := by
  unfold Engine.raiseError; split <;> rfl

@[simp] theorem Engine.raiseError_dataIn (c : ErrorCode) (e : Engine) : (e.raiseError c).dataIn = e.dataIn := by
  unfold Engine.raiseError; split <;> rfl

@[simp] theorem Engine.raiseError_hin (c : ErrorCode) (e : Engine) : (e.raiseError c).hin = e.hin := by
  unfold Engine.raiseError; split <;> rfl

@[simp] theorem Engine.raiseError_pending (c : ErrorCode) (e : Engine) : (e.raiseError c).pending = e.pending := by
  unfold Engine.raiseError; split <;> rfl

@[simp] theorem Engine.raiseError_busy (c : ErrorCode) (e : Engine) : (e.raiseError c).busy = e.busy := by
  unfold Engine.raiseError; split <;> rfl

@[simp] theorem Engine.raiseError_dvalid (c : ErrorCode) (e : Engine) : (e.raiseError c).dvalid = e.dvalid := by
  unfold Engine.raiseError; split <;> rfl

@[simp] theorem Engine.raiseError_digest (c : ErrorCode) (e : Engine) : (e.raiseError c).digest = e.digest := by
  unfold Engine.raiseError; split <;> rfl

@[simp] theorem Engine.raiseError_err (c : ErrorCode) (e : Engine) : (e.raiseError c).err = true := by
  unfold Engine.raiseError; split <;> simp_all

/-- The first error since the last clear is kept. -/
theorem Engine.raiseError_errcode (c : ErrorCode) (e : Engine) :
    (e.raiseError c).errcode = if e.err then e.errcode else errorCodeValue c := by
  unfold Engine.raiseError; split <;> simp_all

@[simp] theorem Engine.pushByte_dataIn (e : Engine) (b : Byte) : (e.pushByte b).dataIn = e.dataIn := by
  simp only [Engine.pushByte]; split <;> rfl

@[simp] theorem Engine.pushByte_hin (e : Engine) (b : Byte) : (e.pushByte b).hin = e.hin := by
  simp only [Engine.pushByte]; split <;> rfl

@[simp] theorem Engine.pushByte_pending (e : Engine) (b : Byte) : (e.pushByte b).pending = e.pending := by
  simp only [Engine.pushByte]; split <;> rfl

@[simp] theorem Engine.pushByte_busy (e : Engine) (b : Byte) : (e.pushByte b).busy = e.busy := by
  simp only [Engine.pushByte]; split <;> rfl

@[simp] theorem Engine.pushByte_dvalid (e : Engine) (b : Byte) : (e.pushByte b).dvalid = e.dvalid := by
  simp only [Engine.pushByte]; split <;> rfl

@[simp] theorem Engine.pushByte_err (e : Engine) (b : Byte) : (e.pushByte b).err = e.err := by
  simp only [Engine.pushByte]; split <;> rfl

@[simp] theorem Engine.pushByte_errcode (e : Engine) (b : Byte) : (e.pushByte b).errcode = e.errcode := by
  simp only [Engine.pushByte]; split <;> rfl

@[simp] theorem Engine.pushByte_digest (e : Engine) (b : Byte) : (e.pushByte b).digest = e.digest := by
  simp only [Engine.pushByte]; split <;> rfl

@[simp] theorem Engine.pushBytes_dataIn (bs : List Byte) (e : Engine) : (e.pushBytes bs).dataIn = e.dataIn := by
  induction bs generalizing e with
  | nil => rfl
  | cons b bs ih => exact (ih (e.pushByte b)).trans (Engine.pushByte_dataIn e b)

@[simp] theorem Engine.pushBytes_hin (bs : List Byte) (e : Engine) : (e.pushBytes bs).hin = e.hin := by
  induction bs generalizing e with
  | nil => rfl
  | cons b bs ih => exact (ih (e.pushByte b)).trans (Engine.pushByte_hin e b)

@[simp] theorem Engine.pushBytes_pending (bs : List Byte) (e : Engine) : (e.pushBytes bs).pending = e.pending := by
  induction bs generalizing e with
  | nil => rfl
  | cons b bs ih => exact (ih (e.pushByte b)).trans (Engine.pushByte_pending e b)

@[simp] theorem Engine.pushBytes_busy (bs : List Byte) (e : Engine) : (e.pushBytes bs).busy = e.busy := by
  induction bs generalizing e with
  | nil => rfl
  | cons b bs ih => exact (ih (e.pushByte b)).trans (Engine.pushByte_busy e b)

@[simp] theorem Engine.pushBytes_dvalid (bs : List Byte) (e : Engine) : (e.pushBytes bs).dvalid = e.dvalid := by
  induction bs generalizing e with
  | nil => rfl
  | cons b bs ih => exact (ih (e.pushByte b)).trans (Engine.pushByte_dvalid e b)

@[simp] theorem Engine.pushBytes_err (bs : List Byte) (e : Engine) : (e.pushBytes bs).err = e.err := by
  induction bs generalizing e with
  | nil => rfl
  | cons b bs ih => exact (ih (e.pushByte b)).trans (Engine.pushByte_err e b)

@[simp] theorem Engine.pushBytes_errcode (bs : List Byte) (e : Engine) : (e.pushBytes bs).errcode = e.errcode := by
  induction bs generalizing e with
  | nil => rfl
  | cons b bs ih => exact (ih (e.pushByte b)).trans (Engine.pushByte_errcode e b)

@[simp] theorem Engine.pushBytes_digest (bs : List Byte) (e : Engine) : (e.pushBytes bs).digest = e.digest := by
  induction bs generalizing e with
  | nil => rfl
  | cons b bs ih => exact (ih (e.pushByte b)).trans (Engine.pushByte_digest e b)

/-- TAIL_LEN is the number of meaningful tail bytes. -/
@[simp] theorem Engine.tailBytes_length (e : Engine) : e.tailBytes.length = e.tailLen.toNat := by
  have := e.tailLen.isLt
  simp [Engine.tailBytes]; omega

/-- A byte that does not fill the tail is appended to it. -/
theorem Engine.pushByte_append (e : Engine) (b : Byte) (room : e.tailLen.toNat < 63) :
    (e.pushByte b).h = e.h ∧ (e.pushByte b).total = e.total ∧
      (e.pushByte b).tailLen.toNat = e.tailLen.toNat + 1 ∧
      (e.pushByte b).tailBytes = e.tailBytes ++ [b] := by
  have full : ¬ e.tailLen.toNat + 1 = 64 := by omega
  have len : (e.tailLen + 1#6).toNat = e.tailLen.toNat + 1 := by
    rw [BitVec.toNat_add]; simp; omega
  simp only [Engine.pushByte, if_neg full, true_and]
  refine ⟨len, ?_⟩
  simp only [Engine.tailBytes, len, Vector.toList_set]
  rw [List.take_set, List.take_add_one, List.set_append_right _ _ (by simp)]
  have inside : e.tailLen.toNat < e.tail.toList.length := by simpa using e.tailLen.isLt
  simp [List.getElem?_eq_getElem inside, Nat.min_eq_left (Nat.le_of_lt e.tailLen.isLt)]

/-- A byte that fills the tail makes the block absorbed. -/
theorem Engine.pushByte_absorb (e : Engine) (b : Byte) (last : e.tailLen.toNat = 63) :
    (e.pushByte b).h = compress e.h (e.tailBytes ++ [b]) ∧ (e.pushByte b).total = e.total + 64#64 ∧
      (e.pushByte b).tailLen = 0#6 ∧ (e.pushByte b).tailBytes = [] := by
  have full : e.tailLen.toNat + 1 = 64 := by omega
  simp only [Engine.pushByte, if_pos full, Engine.absorb_h, Engine.absorb_total, Engine.absorb_tailLen, true_and]
  refine ⟨congrArg (compress e.h) ?_, rfl⟩
  apply List.ext_getElem
  · simp [last]
  · intro i h1 h2
    simp only [Vector.toList_set, List.getElem_set, Engine.tailBytes, List.getElem_append]
    simp at h1
    by_cases hi : i = 63
    · subst hi; simp [last]
    · have : i < 63 := by omega
      simp [last, this, Ne.symm hi]

/-- Everything pushing bytes can do to the stream: with `u` the tail and the bytes, the full blocks of `u` are folded
into H and counted in TOTAL, and the rest of `u` is the tail. -/
theorem Engine.pushBytes_spec (bs : List Byte) (e : Engine) :
    let u := e.tailBytes ++ bs
    let q := u.length / 64
    (e.pushBytes bs).h = (blocksOf u).foldl compress e.h ∧
      (e.pushBytes bs).total.toNat = (e.total.toNat + 64 * q) % 2 ^ 64 ∧
      (e.pushBytes bs).tailLen.toNat = u.length - 64 * q ∧ (e.pushBytes bs).tailBytes = u.drop (64 * q) := by
  induction bs generalizing e with
  | nil =>
    have room := e.tailLen.isLt
    have noBlock : blocksOf e.tailBytes = [] := blocksOf_short (by simpa using room)
    have q0 : e.tailLen.toNat / 64 = 0 := by omega
    have wrap := e.total.isLt
    simp [Engine.pushBytes, noBlock, q0]
    omega
  | cons b bs ih =>
    have rest := ih (e.pushByte b)
    have room := e.tailLen.isLt
    have unfold_push : e.pushBytes (b :: bs) = (e.pushByte b).pushBytes bs := rfl
    have regroup : e.tailBytes ++ b :: bs = (e.tailBytes ++ [b]) ++ bs := by simp
    by_cases last : e.tailLen.toNat = 63
    · obtain ⟨ph, ptotal, _, ptail⟩ := Engine.pushByte_absorb e b last
      have block : (e.tailBytes ++ [b]).length = 64 := by simp [last]
      have q1 : (e.tailBytes ++ b :: bs).length / 64 = bs.length / 64 + 1 := by simp [last]; omega
      rw [ptail, ph, ptotal, List.nil_append] at rest
      obtain ⟨rh, rtotal, rlen, rtail⟩ := rest
      refine ⟨?_, ?_, ?_, ?_⟩
      · rw [unfold_push, regroup, blocksOf_append block]; exact rh
      · rw [unfold_push, rtotal, q1, BitVec.toNat_add]; simp; omega
      · rw [unfold_push, rlen, q1]; simp [last]; omega
      · have split : 64 * (bs.length / 64 + 1) = (e.tailBytes ++ [b]).length + 64 * (bs.length / 64) := by omega
        rw [unfold_push, rtail, q1, regroup, split, List.drop_append]
        simp
    · obtain ⟨ph, ptotal, _, ptail⟩ := Engine.pushByte_append e b (by omega)
      rw [ptail, ph, ptotal] at rest
      rw [unfold_push, regroup]; exact rest

/-- exec is the arm's operation on the engine, then retiring the command. -/
theorem exec_nop (s : State) : exec .nop s = .next (s.onEngine Engine.retire) := rfl

theorem exec_init (s : State) : exec .init s = .next (s.onEngine fun e => e.freshHashState.retire) := rfl

theorem exec_update (n : BitVec 3) (s : State) :
    exec (.update n) s = .next (s.onEngine fun e => (e.pushBytes (updateBytes n e.operandData)).retire) := rfl

theorem exec_finalize (s : State) : exec .finalize s = .next (s.onEngine fun e => e.storeDigest.retire) := rfl

theorem exec_setreg (s : State) :
    exec .setreg s = .next (s.onEngine fun e => (e.loadHash e.operandHin).retire) := rfl

end Sys2Proof.Machine
end

