-- ==== Sys2Proof/Laws/Bus.lean ====
section
/-! SUPPORT. What a bus access can do to the engine, said once. -/

namespace Sys2Proof.Machine

/-- The register at an offset stands in the map at that offset. -/
theorem regAt_offset {word : BitVec 7} {r : Reg} (h : regAt word = some r) : r.offset = word := by
  simpa using List.find?_some h

/-- An aligned 4-byte access to a register's own offset passes the checks. -/
theorem checkAccess_offset (r : Reg) (isWrite : Bool) : checkAccess r.offset .word isWrite = .pass r := by
  cases r with
  | hin n => revert n isWrite; decide
  | digest n => revert n isWrite; decide
  | hex j => revert j isWrite; decide
  | _ => revert isWrite; decide

/-- Everything a CMD write can do (40_commands.md R100): refuse as busy, accept, or refuse as illegal. -/
theorem offerCommand_cases (c : Word) (e : Engine) :
    (e.busy = true ∧ e.offerCommand c = e.raiseError .cmdWhileBusy) ∨
    (e.busy = false ∧ ∃ i, decode c = .legal i ∧ e.offerCommand c = e.accept i) ∨
    (e.busy = false ∧ ∃ why, decode c = .illegal why ∧ e.offerCommand c = e.raiseError .illegalCmd) := by
  unfold Engine.offerCommand
  split
  · exact .inl ⟨‹_›, rfl⟩
  · have idle : e.busy = false := by simpa using ‹¬ e.busy = true›
    split
    · rename_i i h; exact .inr (.inl ⟨idle, i, h, rfl⟩)
    · rename_i why h; exact .inr (.inr ⟨idle, why, h, rfl⟩)

@[simp] theorem DrawKey.next_unit (k : DrawKey) : k.next.unit = k.unit := rfl

@[simp] theorem DrawKey.next_count (k : DrawKey) : k.next.count = k.count + 1 := rfl

/-- A bus access draws one unspecified value or none. -/
theorem busAccess_draws (a : Access) (e : Engine) (k : DrawKey) :
    (busAccess a e k).draws = k ∨ (busAccess a e k).draws = k.next := by
  cases a with
  | read off size =>
    simp only [busAccess, busRead]
    split
    · exact .inl rfl
    · split
      · exact .inr rfl
      · exact .inl rfl
  | write off size v =>
    simp only [busAccess, busWrite]
    split <;> exact .inl rfl

/-- Everything a bus access can do to the engine (45_bus_access.md R191 to R196): nothing, record an error, accept a
command, clear the error record, or store a staging register. -/
theorem busAccess_cases (a : Access) (e : Engine) (k : DrawKey) :
    (busAccess a e k).engine = e ∨
    (∃ c, (busAccess a e k).engine = e.raiseError c) ∨
    (∃ c i, e.busy = false ∧ decode c = .legal i ∧ (busAccess a e k).engine = e.accept i) ∨
    (busAccess a e k).engine = e.clearError ∨
    (∃ v, (busAccess a e k).engine = { e with dataIn := v }) ∨
    (∃ n v, (busAccess a e k).engine = { e with hin := e.hin.set n v }) := by
  cases a with
  | read off size =>
    simp only [busAccess, busRead]
    split
    · exact .inr (.inl ⟨_, rfl⟩)
    · exact .inl rfl
  | write off size v =>
    simp only [busAccess, busWrite]
    split
    · exact .inr (.inl ⟨_, rfl⟩)
    · rename_i r _
      cases r with
      | cmd =>
        obtain ⟨_, h⟩ | ⟨idle, i, d, h⟩ | ⟨_, _, _, h⟩ := offerCommand_cases v e
        · exact .inr (.inl ⟨_, h⟩)
        · exact .inr (.inr (.inl ⟨v, i, idle, d, h⟩))
        · exact .inr (.inl ⟨_, h⟩)
      | status =>
        simp only [Engine.writeReg]
        split
        · exact .inr (.inr (.inr (.inl rfl)))
        · exact .inl rfl
      | dataIn => exact .inr (.inr (.inr (.inr (.inl ⟨v, rfl⟩))))
      | hin n => exact .inr (.inr (.inr (.inr (.inr ⟨n, v, rfl⟩))))
      | _ => exact .inr (.inl ⟨_, rfl⟩)

end Sys2Proof.Machine
end

