-- ==== Sys2Proof/Laws/PerInstr.lean ====
section
/-! SUPPORT. Statements made per instruction: what the encoder puts into the fields of a command word. -/

namespace Sys2Proof.Laws

/-- RSV, bits 31:11, is 0 in every encoded command, and OPCODE is one of the five of the map (30_encoding.md R70,
R72). -/
def EncodedFields.Statement (i : Instr) : Prop :=
  rsvOf (encode i) = 0#21 ∧ opcodeOf (encode i) ≤ 0x04#8

theorem EncodedFields.nop : EncodedFields.Statement .nop := by unfold EncodedFields.Statement; decide

theorem EncodedFields.init : EncodedFields.Statement .init := by unfold EncodedFields.Statement; decide

theorem EncodedFields.update (len : BitVec 3) : EncodedFields.Statement (.update len) := by
  unfold EncodedFields.Statement; revert len; decide

theorem EncodedFields.finalize : EncodedFields.Statement .finalize := by unfold EncodedFields.Statement; decide

theorem EncodedFields.setreg : EncodedFields.Statement .setreg := by unfold EncodedFields.Statement; decide

end Sys2Proof.Laws
end

