-- ==== Sys2Proof/Laws/Step.lean ====
section
/-! SUPPORT. What one step of the machine can do, said once. -/

namespace Sys2Proof.Machine

/-- Everything exec can answer: always a next state, the body on the engine and then retired. -/
theorem exec_cases (i : Instr) (s : State) : ∃ body : Engine → Engine,
    exec i s = .next (s.onEngine fun e => (body e).retire) ∧
    ((i = .nop ∧ body = id) ∨ (i = .init ∧ body = Engine.freshHashState) ∨
     (∃ n, i = .update n ∧ body = fun e => e.pushBytes (updateBytes n e.operandData)) ∨
     (i = .finalize ∧ body = Engine.storeDigest) ∨
     (i = .setreg ∧ body = fun e => e.loadHash e.operandHin)) := by
  cases i with
  | nop => exact ⟨_, rfl, .inl ⟨rfl, rfl⟩⟩
  | init => exact ⟨_, rfl, .inr (.inl ⟨rfl, rfl⟩)⟩
  | update n => exact ⟨_, rfl, .inr (.inr (.inl ⟨n, rfl, rfl⟩))⟩
  | finalize => exact ⟨_, rfl, .inr (.inr (.inr (.inl ⟨rfl, rfl⟩)))⟩
  | setreg => exact ⟨_, rfl, .inr (.inr (.inr (.inr ⟨rfl, rfl⟩)))⟩

/-- Everything a Host's step can do: nothing, or one bus access of an operation at the head of its program. -/
theorem hostStep_cases (k : Nat) (s : State) :
    s.hostStep k = s ∨
    ∃ h op rest, s.hosts[k]? = some h ∧ h.program = op :: rest ∧
      s.hostStep k = { s with
        engine := (busAccess op.toAccess s.engine s.draws).engine
        draws := (busAccess op.toAccess s.engine s.draws).draws
        hosts := s.hosts.set k (h.after op rest (busAccess op.toAccess s.engine s.draws).reply) } := by
  unfold State.hostStep
  split
  · exact .inl rfl
  · rename_i h at_
    split
    · exact .inl rfl
    · rename_i op rest prog
      exact .inr ⟨h, op, rest, at_, prog, rfl⟩

/-- Everything a step can do (20_memory.md R61): an Engine performance, an idle Engine, a Host access, a reset. -/
theorem step_cases (s : State) :
    (∃ p, s.nextAgent = .engine ∧ s.engine.pending = some p ∧ step s = exec p.cmd s.advance) ∨
    (s.nextAgent = .engine ∧ s.engine.pending = none ∧ step s = .next s.advance) ∨
    (∃ k, s.nextAgent = .host k ∧ step s = .next (s.advance.hostStep k)) ∨
    (s.nextAgent = .reset ∧ step s = .next s.advance.resetEngine) := by
  unfold step
  split
  · rename_i who
    unfold engineStep
    simp only [State.advance_engine]
    split
    · rename_i p pend; exact .inl ⟨p, who, pend, rfl⟩
    · rename_i pend; exact .inr (.inl ⟨who, pend, rfl⟩)
  · rename_i k who; exact .inr (.inr (.inl ⟨k, who, rfl⟩))
  · rename_i who; exact .inr (.inr (.inr ⟨who, rfl⟩))

end Sys2Proof.Machine
end

