-- ==== Sys2Proof/Tests/Slice0.lean ====
section
/-! SUPPORT. The model's own tests: small facts with expected values from 95_test_vectors.md or worked by hand from the
rules, and for each statement that has hypotheses a witness that meets them. -/

namespace Sys2Proof.Tests

open Sys2Proof.Machine

/-! ## States -/

/-- A tail that begins with the given bytes. -/
def tailOf (bs : List Byte) : Vector Byte 64 := Vector.ofFn fun i => bs.getD i.val 0#8

/-- The reset engine with `i` pending, `data` latched. -/
def pendingEngine (i : Instr) (data : Word) : Engine :=
  { Engine.reset with pending := some ⟨i, data, ⟨1#32, 2#32, 3#32, 4#32, 5#32⟩⟩, busy := true }

/-- The reset machine with `i` pending. -/
def pendingState (i : Instr) (data : Word) : State := { State.reset with engine := pendingEngine i data }

/-- `abc` in the tail. -/
def abcEngine : Engine := { Engine.reset with tail := tailOf [0x61#8, 0x62#8, 0x63#8], tailLen := 3#6 }

/-- One Host with the given operations, its step next. -/
def hostState (e : Engine) (ops : List HostOp) : State := ⟨e, [⟨ops, []⟩], [.host 0], ⟨0, 0⟩⟩

/-- The HashState an outcome answers. -/
def hashStateOf (o : Host.Outcome State Fault Refusal) : Option (Words5 × List Byte × BitVec 64) :=
  match o with
  | .next t => some (t.engine.h, t.engine.tailBytes, t.engine.total)
  | _ => none

/-- DIGEST and DVALID of an outcome. -/
def digestOfOutcome (o : Host.Outcome State Fault Refusal) : Option (Words5 × Bool) :=
  match o with
  | .next t => some (t.engine.digest, t.engine.dvalid)
  | _ => none

/-- PENDING and BUSY of an outcome. -/
def pendingOf (o : Host.Outcome State Fault Refusal) : Option (Option Pending × Bool) :=
  match o with
  | .next t => some (t.engine.pending, t.engine.busy)
  | _ => none

/-- The STATUS word an idle engine reads. -/
def statusOf (e : Engine) : Word := e.regValue .status

/-! ## Well-formedness and decoding (30_encoding.md R72, 95_test_vectors.md L2-K) -/

theorem test_update_5_is_ill_formed : WellFormed (.update 5#3) = false := by decide

theorem test_update_4_is_well_formed : WellFormed (.update 4#3) = true := by decide

theorem test_decode_nop : decode 0b000000000000000000000_000_00000000#32 = .legal .nop := by decide

theorem test_decode_init : decode 0b000000000000000000000_000_00000001#32 = .legal .init := by decide

theorem test_decode_update : decode 0b000000000000000000000_100_00000010#32 = .legal (.update 4#3) := by decide

theorem test_decode_finalize : decode 0b000000000000000000000_000_00000011#32 = .legal .finalize := by decide

theorem test_decode_setreg : decode 0b000000000000000000000_000_00000100#32 = .legal .setreg := by decide

theorem test_decode_refuses :
    decode 0x000000FF#32 = .illegal .unknownOpcode ∧ decode 0x00000702#32 = .illegal .lenTooLong ∧
      decode 0x00000101#32 = .illegal .lenNotZero ∧ decode 0x00000800#32 = .illegal .reservedBits := by decide

theorem test_encode_update_3 : encode (.update 3#3) = 0x00000302#32 := by decide

theorem test_decode_table_word :
    decodeTableWord 32 0x402 = some (.update 4#3) ∧ decodeTableWord 32 0x502 = none ∧
      decodeTableWord 8 3 = some .finalize := by decide

/-! ## Primitives (95_test_vectors.md L2-A to L2-F) -/

theorem test_rotl : rotl 0x80000000#32 1 = 0x00000001#32 ∧ rotl 0x12345678#32 5 = 0x468ACF02#32 ∧
    rotl 0x12345678#32 30 = 0x048D159E#32 := by decide

theorem test_round_functions :
    let f := fun i => roundFK i 0xEFCDAB89#32 0x98BADCFE#32 0x10325476#32
    f 0 = (0x98BADCFE#32, 0x5A827999#32) ∧ f 19 = f 0 ∧ f 20 = (0x67452301#32, 0x6ED9EBA1#32) ∧ f 39 = f 20 ∧
      f 40 = (0x98BADCFE#32, 0x8F1BBCDC#32) ∧ f 59 = f 40 ∧ f 60 = (0x67452301#32, 0xCA62C1D6#32) ∧ f 79 = f 60 := by
  decide

theorem test_round_majority :
    (roundFK 40 0xF0F0F0F0#32 0xFF00FF00#32 0x0FF00FF0#32).1 = 0xFFF0FFF0#32 := by decide

/-- The padded message "abc". -/
def abcBlock : List Byte := pad [0x61#8, 0x62#8, 0x63#8] 0#64

theorem test_schedule_of_abc :
    (messageSchedule abcBlock).length = 80 ∧ (messageSchedule abcBlock).getD 0 0 = 0x61626380#32 ∧
      (messageSchedule abcBlock).getD 15 0 = 0x00000018#32 ∧
      (messageSchedule abcBlock).getD 16 0 = 0xC2C4C700#32 ∧ (messageSchedule abcBlock).getD 19 0 = 0x85898E01#32 ∧
      (messageSchedule abcBlock).getD 79 0 = 0x822E0879#32 := by decide +kernel

theorem test_rounds_of_abc :
    roundStep 0 0x61626380#32 (startVars iv) =
        ⟨0x0116FC33#32, 0x67452301#32, 0x7BF36AE2#32, 0x98BADCFE#32, 0x10325476#32⟩ ∧
      runRounds 0 (messageSchedule abcBlock) (startVars iv) =
        ⟨0x42541B35#32, 0x5738D5E1#32, 0x21834873#32, 0x681E6DF6#32, 0xD8FDF6AD#32⟩ := by decide +kernel

theorem test_compress_zero_block :
    compress iv (List.replicate 64 0#8) =
      ⟨0x92B404E5#32, 0x56588CED#32, 0x6C1ACD4E#32, 0xBF053F68#32, 0x09F73A93#32⟩ := by decide +kernel

theorem test_compress_ones_block :
    compress ⟨0#32, 0#32, 0#32, 0#32, 0#32⟩ (List.replicate 64 0xFF#8) =
      ⟨0xD21FA547#32, 0x30867DE7#32, 0x4C374871#32, 0xC1865E49#32, 0x1ECE2C16#32⟩ := by decide +kernel

theorem test_pad_lengths :
    [0, 1, 55, 56, 63].map (fun n => (pad (List.replicate n 0x61#8) 0#64).length) = [64, 64, 64, 128, 128] := by
  decide +kernel

theorem test_pad_length_field_wraps :
    (pad [0#8, 0#8, 0#8] (BitVec.ofNat 64 (2 ^ 64 - 64))).drop 56 =
      [0xFF#8, 0xFF#8, 0xFF#8, 0xFF#8, 0xFF#8, 0xFF#8, 0xFE#8, 0x18#8] := by decide +kernel

/-! ## The commands (95_test_vectors.md L2-G to L2-J) -/

/-- L2-J: DVALID is kept by NOP. -/
theorem test_nop_keeps_dvalid :
    pendingOf (exec .nop { State.reset with engine := { pendingEngine .nop 0#32 with dvalid := true } }) =
        some (none, false) ∧
      (digestOfOutcome (exec .nop
        { State.reset with engine := { pendingEngine .nop 0#32 with dvalid := true } })).map (·.2) = some true := by
  decide

/-- L2-G: after INIT, H = IV, TAIL_LEN 0, TOTAL 0. -/
theorem test_init :
    hashStateOf (exec .init { State.reset with engine := { abcEngine with
        h := ⟨0#32, 1#32, 2#32, 3#32, 4#32⟩, total := 64#64 } }) =
      some (⟨0x67452301#32, 0xEFCDAB89#32, 0x98BADCFE#32, 0x10325476#32, 0xC3D2E1F0#32⟩, [], 0#64) := by
  decide

/-- L2-G: the latched word is appended, not the DATA_IN written since. -/
theorem test_update_takes_latched_data :
    hashStateOf (exec (.update 3#3) { State.reset with engine := { pendingEngine (.update 3#3) 0x61626364#32 with
        dataIn := 0x7A7A7A7A#32 } }) = some (iv, [0x61#8, 0x62#8, 0x63#8], 0#64) := by decide +kernel

/-- L2-G: 62 bytes `x` and 4 bytes more: a block absorbed, two bytes left. -/
theorem test_update_absorbs :
    hashStateOf (exec (.update 4#3) { State.reset with engine := { pendingEngine (.update 4#3) 0x41424344#32 with
        tail := tailOf (List.replicate 62 0x78#8), tailLen := 62#6 } }) =
      some (⟨0x462B69A5#32, 0x349F6C1C#32, 0x1ED6E79E#32, 0xDF3D3ECD#32, 0xA6DA016E#32⟩, [0x43#8, 0x44#8], 64#64) := by
  decide +kernel

/-- L1-1: the digest of the empty message, from reset. -/
theorem test_finalize_empty :
    digestOfOutcome (exec .finalize (pendingState .finalize 0#32)) =
      some (⟨0xDA39A3EE#32, 0x5E6B4B0D#32, 0x3255BFEF#32, 0x95601890#32, 0xAFD80709#32⟩, true) := by decide +kernel

/-- L1-4: 56 bytes `a`, two padded blocks. -/
theorem test_finalize_two_blocks :
    digestOfOutcome (exec .finalize { State.reset with engine := { Engine.reset with
        tail := tailOf (List.replicate 56 0x61#8), tailLen := 56#6 } }) =
      some (⟨0xC2DB330F#32, 0x6083854C#32, 0x99D4B5BF#32, 0xB6E8F29F#32, 0x201BE699#32⟩, true) := by decide +kernel

/-- SETREG takes the latched values and keeps the tail and TOTAL (43_setreg.md R160, R161). -/
theorem test_setreg :
    hashStateOf (exec .setreg { State.reset with engine := { abcEngine with
        total := 64#64
        pending := some ⟨.setreg, 0#32, ⟨0x01234567#32, 0xFFFFFFFF#32, 0#32, 3#32, 4#32⟩⟩ } }) =
      some (⟨0x01234567#32, 0xFFFFFFFF#32, 0#32, 3#32, 4#32⟩, [0x61#8, 0x62#8, 0x63#8], 64#64) := by decide +kernel

/-! ## Bus accesses (95_test_vectors.md L2-L, L1-7) -/

/-- STATUS after one access of the reset engine. -/
def statusAfter (a : Access) : Word := statusOf (busAccess a Engine.reset ⟨0, 0⟩).engine

theorem test_refused_accesses :
    statusAfter (.write 0x10#7 .byte 0xAB#32) = 0x00000304#32 ∧ statusAfter (.write 0x12#7 .half 0xAB#32) = 0x00000304#32 ∧
      statusAfter (.write 0x11#7 .word 0xAB#32) = 0x00000304#32 ∧ statusAfter (.write 0x30#7 .word 5#32) = 0x00000404#32 ∧
      statusAfter (.write 0x00#7 .word 5#32) = 0x00000404#32 ∧ statusAfter (.read 0x2C#7 .word) = 0x00000404#32 ∧
      statusAfter (.write 0x7C#7 .word 1#32) = 0x00000404#32 ∧ statusAfter (.read 0x09#7 .word) = 0x00000404#32 ∧
      statusAfter (.read 0x08#7 .byte) = 0x00000404#32 ∧ statusAfter (.read 0x10#7 .byte) = 0x00000404#32 ∧
      statusAfter (.write 0x0C#7 .half 1#32) = 0x00000404#32 ∧ statusAfter (.write 0x04#7 .byte 1#32) = 0x00000404#32 := by
  decide +kernel

theorem test_illegal_commands :
    statusAfter (.write 0x04#7 .word 0x00000005#32) = 0x00000104#32 ∧
      statusAfter (.write 0x04#7 .word 0x00000502#32) = 0x00000104#32 ∧
      statusAfter (.write 0x04#7 .word 0x00000101#32) = 0x00000104#32 ∧
      statusAfter (.write 0x04#7 .word 0x80000003#32) = 0x00000104#32 := by decide +kernel

/-- Busy is checked before decode, and the first error is kept. -/
theorem test_cmd_while_busy :
    statusOf (busAccess (.write 0x04#7 .word 0x00000077#32) (pendingEngine .nop 0#32) ⟨0, 0⟩).engine = 0x00000205#32 ∧
      statusOf (busAccess (.write 0x04#7 .word 0x00000007#32)
        { Engine.reset with err := true, errcode := 0x02#8 } ⟨0, 0⟩).engine = 0x00000204#32 := by decide +kernel

theorem test_clear_error :
    statusOf (busAccess (.write 0x08#7 .word 0xFFFFFFFB#32)
        { Engine.reset with err := true, errcode := 0x02#8 } ⟨0, 0⟩).engine = 0x00000204#32 ∧
      statusOf (busAccess (.write 0x08#7 .word 0x00000004#32)
        { Engine.reset with err := true, errcode := 0x02#8 } ⟨0, 0⟩).engine = 0x00000000#32 := by decide +kernel

theorem test_reads_after_reset :
    (busAccess (.read 0x00#7 .word) Engine.reset ⟨0, 0⟩).reply = some 0x53484131#32 ∧
      (busAccess (.read 0x50#7 .word) Engine.reset ⟨0, 0⟩).reply = some 0x30303030#32 ∧
      (busAccess (.read 0x30#7 .word) Engine.reset ⟨0, 0⟩).reply = some 0#32 ∧
      (busAccess (.read 0x2C#7 .word) Engine.reset ⟨0, 0⟩).reply = some 0#32 := by decide +kernel

/-- L1-7: the hex digest of "abc". -/
theorem test_hex_of_abc :
    (List.finRange 10).map (fun j => hexWord (hexHalf
        ⟨0xA9993E36#32, 0x4706816A#32, 0xBA3E2571#32, 0x7850C26C#32, 0x9CD0D89D#32⟩ j)) =
      [0x61393939#32, 0x33653336#32, 0x34373036#32, 0x38313661#32, 0x62613365#32, 0x32353731#32, 0x37383530#32,
        0x63323663#32, 0x39636430#32, 0x64383964#32] := by decide +kernel

/-- L1-2: the 20-byte digest of "abc". -/
theorem test_digest_bytes_of_abc :
    ({ Engine.reset with digest := ⟨0xA9993E36#32, 0x4706816A#32, 0xBA3E2571#32, 0x7850C26C#32, 0x9CD0D89D#32⟩ } :
        Engine).digestBytes =
      [0xA9#8, 0x99#8, 0x3E#8, 0x36#8, 0x47#8, 0x06#8, 0x81#8, 0x6A#8, 0xBA#8, 0x3E#8, 0x25#8, 0x71#8, 0x78#8, 0x50#8,
        0xC2#8, 0x6C#8, 0x9C#8, 0xD0#8, 0xD8#8, 0x9D#8] := by decide +kernel

/-! ## Steps, Hosts, platform -/

/-- Every row of the opcode table runs as the first instruction after reset. -/
theorem test_rows_run_from_reset :
    [0x0, 0x1, 0x2, 0x3, 0x4].map (fun w => pendingOf (step (State.reset.withFetchWord 32 w))) =
      List.replicate 5 (some (none, false)) := by decide +kernel

/-- An illegal word placed is written to CMD by the next step: ILLEGAL_CMD. -/
theorem test_illegal_word_placed :
    (match step (State.reset.withFetchWord 32 0x502) with
      | .next t => some (statusOf t.engine)
      | _ => none) = some 0x00000104#32 := by decide +kernel

/-- 30_encoding.md R77: LOADH writes HIN0..4 in order, then CMD SETREG, and WAIT polls STATUS. -/
theorem test_loadh :
    (HostLine.loadh ⟨1#32, 2#32, 3#32, 4#32, 5#32⟩).expand.map HostOp.toAccess =
      [.write 0x10#7 .word 1#32, .write 0x14#7 .word 2#32, .write 0x18#7 .word 3#32, .write 0x1C#7 .word 4#32,
        .write 0x20#7 .word 5#32, .write 0x04#7 .word 4#32, .read 0x08#7 .word] := by decide +kernel

/-- 30_encoding.md R77: FEED of five bytes is two groups, the second of one byte. -/
theorem test_feed_of_five_bytes :
    (HostLine.feed [0x61#8, 0x62#8, 0x63#8, 0x64#8, 0x65#8]).expand =
      [.access (.write 0x0C#7 .word 0x61626364#32), .access (.write 0x04#7 .word 0x00000402#32), .wait,
        .access (.write 0x0C#7 .word 0x65000000#32), .access (.write 0x04#7 .word 0x00000102#32), .wait] := by
  decide +kernel

/-- A Host's CMD NOP is accepted: STATUS 0x00000001 (40_commands.md R103), and the program goes on. -/
theorem test_host_cmd_nop :
    (match step (hostState Engine.reset (assemble [.cmd .nop, .wait])) with
      | .next t => some (t.engine.busy, t.hosts)
      | _ => none) = some (true, [⟨[.wait], []⟩]) := by decide +kernel

/-! ## Witnesses: a state and operands that meet a statement's hypotheses -/

theorem witness_ScheduleDecidesWhoMoves :
    ({ State.reset with schedule := [.reset, .host 3, .engine] } : State).schedule = .reset :: [.host 3, .engine] := rfl

theorem witness_StepRunsPendingCommand :
    (pendingState (.update 4#3) 7#32).engine.pending =
        some ⟨.update 4#3, 7#32, ⟨1#32, 2#32, 3#32, 4#32, 5#32⟩⟩ ∧
      (pendingState (.update 4#3) 7#32).nextAgent = .engine := by decide

theorem witness_StepRunsDecodedWord : decode 0x00000402#32 = .legal (.update 4#3) := by decide

theorem witness_IdleMachineHoldsItsState :
    let s : State := { State.reset with hosts := [⟨[], [1#32]⟩] }
    s.engine.pending = none ∧ s.schedule = [] ∧ ∀ h ∈ s.hosts, h.program = [] := by decide

theorem witness_PendingCommandReachesTheEngine :
    let s : State := { pendingState .init 0#32 with hosts := [⟨[.wait], []⟩], schedule := [.host 0, .host 0] }
    s.engine.pending = some ⟨.init, 0#32, ⟨1#32, 2#32, 3#32, 4#32, 5#32⟩⟩ ∧ s.engine.busy = true := by decide

theorem witness_ResetStepClearsTheEngine :
    ({ pendingState .init 0#32 with schedule := [.reset] } : State).nextAgent = .reset := by decide

theorem witness_EveryStepKeepsTheInvariant :
    Inv (pendingState .nop 0#32) ∧ step (pendingState .nop 0#32) = .next State.reset := ⟨by decide, rfl⟩

/-- LEN 0 and LEN 4, at tail lengths where the bytes just do and just do not fill the block. -/
theorem witness_UpdateAppendsBytesAndAbsorbs :
    (4#3).toNat ≤ 4 ∧ (0#3).toNat ≤ 4 ∧
      (pendingEngine (.update 4#3) 7#32).pending = some ⟨.update 4#3, 7#32, ⟨1#32, 2#32, 3#32, 4#32, 5#32⟩⟩ ∧
      ({ pendingEngine (.update 4#3) 7#32 with tailLen := 59#6 } : Engine).tailBytes.length + 4 = 63 ∧
      ({ pendingEngine (.update 4#3) 7#32 with tailLen := 60#6 } : Engine).tailBytes.length + 4 = 64 := by
  decide +kernel

theorem witness_SetregLoadsTheLatchedValues :
    (pendingState .setreg 0#32).engine.pending = some ⟨.setreg, 0#32, ⟨1#32, 2#32, 3#32, 4#32, 5#32⟩⟩ := by decide

theorem witness_PerformanceFrame :
    (Instr.nop = .nop ∨ Instr.nop = .finalize) ∧ (∀ n, Instr.setreg ≠ .update n) ∧ Instr.init ≠ .finalize := by decide

/-- A stream of 0 to 4 bytes a command, with a FINALIZE and a NOP in it (the "abc" of 95_test_vectors.md P1). -/
def abcStream : List StreamCommand :=
  [.update 2#3 0x6162FFFF#32, .finalize, .update 0#3 0#32, .nop, .update 1#3 0x63FFFFFF#32]

theorem witness_ChunkingNeverChangesTheResult :
    legalStream abcStream = true ∧ streamBytes abcStream = [0x61#8, 0x62#8, 0x63#8] := by decide +kernel

theorem witness_DigestIsThatOfTheWholeMessage : legalStream [StreamCommand.update 4#3 0#32] = true := by decide

theorem witness_ByteCountSinceInit : legalStream (List.replicate 17 (.update 4#3 0#32)) = true := by decide

/-- "def". -/
def defStream : List StreamCommand := [.update 3#3 0x64656600#32]

/-- P ++ g ++ S of 95_test_vectors.md P3: "abc", its glue padding, "def". -/
def extendedStream : List StreamCommand :=
  [.update 4#3 0x61626380#32] ++ List.replicate 14 (.update 4#3 0#32) ++ [.update 4#3 0x00000018#32] ++ defStream

/-- The engine with TOTAL = 64, TAIL_LEN = 0, as after 64 bytes of filler (95_test_vectors.md P3). -/
def fillerState : State := { State.reset with engine := { Engine.reset with total := 64#64 } }

theorem witness_LengthExtension :
    legalStream abcStream = true ∧ legalStream defStream = true ∧ legalStream extendedStream = true ∧
      streamBytes extendedStream = streamBytes abcStream ++
        (pad (streamBytes abcStream) 0#64).drop (streamBytes abcStream).length ++ streamBytes defStream ∧
      fillerState.engine.total = BitVec.ofNat 64 (pad (streamBytes abcStream) 0#64).length ∧
      fillerState.engine.tailLen = 0#6 := by decide +kernel

/-- 95_test_vectors.md P3, line 25: the extension digest. -/
theorem test_length_extension_digest :
    digestOfOutcome (extendStream ⟨0xA9993E36#32, 0x4706816A#32, 0xBA3E2571#32, 0x7850C26C#32, 0x9CD0D89D#32⟩
        defStream fillerState) =
      some (⟨0xE17BE75B#32, 0x08A7E926#32, 0x498DA4BC#32, 0x47F3CB6E#32, 0x1F20B125#32⟩, true) := by decide +kernel

theorem witness_PaddingLayout : (List.replicate 63 0x61#8).length ≤ 63 := by decide

theorem witness_OneOrTwoPaddedBlocks :
    (List.replicate 55 0x61#8).length ≤ 55 ∧ 56 ≤ (List.replicate 56 0x61#8).length ∧
      (List.replicate 63 0x61#8).length ≤ 63 := by decide

theorem witness_MessageScheduleWords : (List.replicate 64 0x61#8).length = 64 ∧ 15 < 16 ∧ 16 ≤ 16 ∧ 79 < 80 := by decide

theorem witness_CompressIsEightyRounds : abcBlock.length = 64 := by decide +kernel

theorem witness_RoundIsTheFiveTermSum : 79 ≤ 79 := by decide

theorem witness_RotlMovesBits : 0 < 30 ∧ 30 < 32 ∧ 31 < 32 ∧ (31 + 30) % 32 = 29 := by decide

theorem witness_RefusedAccessOnlyRecordsTheError :
    checkAccess 0x2C#7 .word false = .refuse .badAccess ∧ checkAccess 0x7E#7 .half true = .refuse .badAccess ∧
      checkAccess 0x23#7 .byte true = .refuse .invalidInputLength ∧
      checkAccess 0x23#7 .byte false = .refuse .badAccess ∧
      (ErrorCode.invalidInputLength, 0x03#8) ∈ [(ErrorCode.illegalCmd, 0x01#8), (.cmdWhileBusy, 0x02#8),
        (.invalidInputLength, 0x03#8), (.badAccess, 0x04#8)] := by decide +kernel

/-- Each check of 60_exceptions.md R213 the first that fails, and an access that none fails. -/
theorem witness_EachAccessReportsItsFirstFailingCheck :
    Engine.reset.err = false ∧ errorOf (.write 0x2F#7 .byte 0#32) Engine.reset = some .badAccess ∧
      errorOf (.write 0x23#7 .byte 0#32) Engine.reset = some .invalidInputLength ∧
      errorOf (.write 0x07#7 .byte 5#32) (pendingEngine .nop 0#32) = some .badAccess ∧
      errorOf (.write 0x74#7 .word 0#32) Engine.reset = some .badAccess ∧
      errorOf (.write 0x04#7 .word 5#32) (pendingEngine .nop 0#32) = some .cmdWhileBusy ∧
      errorOf (.write 0x04#7 .word 5#32) Engine.reset = some .illegalCmd ∧
      errorOf (.read 0x10#7 .half) Engine.reset = some .badAccess ∧
      errorOf (.read 0x74#7 .word) Engine.reset = none := by decide +kernel

theorem witness_IdleReadsAreExact : Engine.reset.busy = false := rfl

theorem witness_BusyReadsDraw : (pendingEngine .nop 0#32).busy = true := rfl

theorem witness_HexDigestCharacters : abcEngine.busy = false := rfl

theorem witness_DigestBytesAreBigEndian : abcEngine.busy = false := rfl

theorem witness_StatusFields : abcEngine.busy = false := rfl

theorem witness_BusyAccessKeepsThePendingCommand : (pendingEngine .setreg 0#32).busy = true := rfl

theorem witness_RoundFunctionForms : 19 ≤ 19 ∧ 20 ≤ 39 ∧ 39 ≤ 39 ∧ 40 ≤ 59 ∧ 59 ≤ 59 ∧ 60 ≤ 79 ∧ 79 ≤ 79 := by decide

theorem witness_FirstErrorIsKept :
    ({ Engine.reset with err := true, errcode := 0x02#8 } : Engine).err = true ∧
      (0xFFFFFFFB#32 : Word).getLsbD 2 = false := by decide

/-- H written by a reset, by INIT, by SETREG and by an UPDATE that fills the tail. -/
theorem witness_HashRegistersWrittenOnlyByTheirCommands :
    let zero : Words5 := ⟨0#32, 0#32, 0#32, 0#32, 0#32⟩
    let at_ := fun (i : Instr) => ({ State.reset with engine := { pendingEngine i 0#32 with h := zero, tailLen := 60#6 } } : State)
    ((hashStateOf (step { at_ .nop with schedule := [.reset] })).map (·.1) = some iv) ∧
      ((hashStateOf (step (at_ .init))).map (·.1) = some iv) ∧
      ((hashStateOf (step (at_ .setreg))).map (·.1) = some ⟨1#32, 2#32, 3#32, 4#32, 5#32⟩) ∧
      ((hashStateOf (step (at_ (.update 4#3)))).map (·.1) ≠ some zero) := by decide +kernel

/-- TOTAL to 0 by a reset and by INIT, and on by 64, past the wrap (95_test_vectors.md L2-G). -/
theorem witness_TotalChangesInThreeWays :
    let at_ := fun (i : Instr) => ({ State.reset with engine := { pendingEngine i 0#32 with
      total := BitVec.ofNat 64 (2 ^ 64 - 64), tailLen := 60#6 } } : State)
    ((hashStateOf (step { at_ .nop with schedule := [.reset] })).map (·.2.2) = some 0#64) ∧
      ((hashStateOf (step (at_ .init))).map (·.2.2) = some 0#64) ∧
      ((hashStateOf (step (at_ (.update 4#3)))).map (·.2.2) = some 0#64) := by decide +kernel

/-- BUSY, DVALID, ERR, ERRCODE of an engine. -/
def flagsOf (e : Engine) : Bool × Bool × Bool × BitVec 8 := (e.busy, e.dvalid, e.err, e.errcode)

/-- The flags after a step. -/
def flagsAfter (s : State) : Option (Bool × Bool × Bool × BitVec 8) :=
  match step s with
  | .next t => some (flagsOf t.engine)
  | _ => none

/-- An idle engine with DVALID, ERR and the code of CMD_WHILE_BUSY. -/
def flaggedEngine : Engine := { Engine.reset with dvalid := true, err := true, errcode := 0x02#8 }

/-- Every flag set and cleared: BUSY by acceptance, performance and reset; DVALID by FINALIZE, acceptance and reset;
ERR and ERRCODE by a refused access, a STATUS write and reset. -/
theorem witness_FlagsWrittenOnlyByTheirRules :
    flagsAfter (hostState flaggedEngine [opCmd .init]) = some (true, false, true, 0x02#8) ∧
      flagsAfter (pendingState .finalize 0#32) = some (false, true, false, 0x00#8) ∧
      flagsAfter { hostState { flaggedEngine with busy := true } [] with schedule := [.reset] } =
        some (false, false, false, 0x00#8) ∧
      flagsAfter (hostState Engine.reset [.access (.write 0x10#7 .byte 0#32)]) = some (false, false, true, 0x03#8) ∧
      flagsAfter (hostState flaggedEngine [opWr .status 4#32]) = some (false, true, false, 0x00#8) := by decide +kernel

theorem witness_EachRuleWritesItsFlags :
    (State.nextAgent { pendingState .nop 0#32 with schedule := [.reset] } = .reset) ∧
      (pendingState .nop 0#32).nextAgent = .engine ∧ (pendingState .nop 0#32).engine.pending.isSome = true ∧
      accessOf (hostState flaggedEngine [opCmd .init]) = some (.write 0x04#7 .word 1#32) ∧
      flaggedEngine.busy = false ∧ decode 1#32 = .legal .init ∧
      accessOf (hostState Engine.reset [opWr .id 0#32]) = some (.write 0x00#7 .word 0#32) ∧
      errorOf (.write 0x00#7 .word 0#32) Engine.reset = some .badAccess ∧
      accessOf (hostState flaggedEngine [opWr .status 4#32]) = some (.write 0x08#7 .word 4#32) ∧
      (4#32 : Word).getLsbD 2 = true := by decide +kernel

/-- Two engines with "abc" in the tail and different bytes beyond it. -/
theorem witness_UnusedTailBytesNeverMatter :
    AlikeButUnusedTail abcEngine { abcEngine with tail := tailOf [0x61#8, 0x62#8, 0x63#8, 0xEE#8] } ∧
      abcEngine ≠ { abcEngine with tail := tailOf [0x61#8, 0x62#8, 0x63#8, 0xEE#8] } := by decide +kernel

theorem witness_HostStepIsItsNextAccess :
    let s := hostState Engine.reset [opRd .id]
    s.nextAgent = .host 0 ∧ s.hosts[0]? = some ⟨[.access (.read 0x00#7 .word)], []⟩ := by decide +kernel

theorem witness_WaitPollsUntilNotBusy :
    let s := hostState (pendingEngine .nop 0#32) [.wait]
    s.nextAgent = .host 0 ∧ s.hosts[0]? = some ⟨[.wait], []⟩ ∧ s.engine.busy = true := by decide +kernel

/-- Two instances, the second busy and with draws of its own. -/
def twoEngines : Platform := [⟨0x1000, State.reset⟩, ⟨0x1080, { pendingState .nop 0#32 with draws := ⟨1, 0⟩ }⟩]

theorem witness_InstancesShareNoState :
    twoEngines[1]? = some ⟨0x1080, { pendingState .nop 0#32 with draws := ⟨1, 0⟩ }⟩ := rfl

theorem witness_PlatformKeepsDrawsApart :
    platformWf twoEngines = true ∧ [0x1000, 0x1080].Nodup ∧ (∀ b ∈ [0x1000, 0x1080], b % 0x80 = 0) ∧
      step State.reset = .next State.reset := ⟨by decide +kernel, by decide, by decide, rfl⟩

/-- 70_reset_and_hazards.md R247: the second of two instances draws with its own key, and counts the draw. -/
theorem test_draws_are_per_instance :
    (platformReset [0x1000, 0x1080]).map (fun s => s.machine.draws) = [⟨0, 0⟩, ⟨1, 0⟩] ∧
      ((platformRead 0x10A4 .word twoEngines).1.map fun s => s.machine.draws) = [⟨0, 0⟩, ⟨1, 1⟩] := by decide +kernel

/-- Addresses at both ends of a window, and one just outside both. -/
theorem witness_AccessReachesOnlyItsWindow :
    windowsApart twoEngines = true ∧ twoEngines[0]? = some ⟨0x1000, State.reset⟩ ∧
      0x1000 ≤ 0x107F ∧ 0x107F < 0x1000 + 0x80 ∧
      (∀ slot ∈ twoEngines, ¬ (slot.base ≤ 0x1100 ∧ 0x1100 < slot.base + 0x80)) ∧
      (platformRead 0x1080 .word twoEngines).2 = some 0x53484131#32 ∧
      (platformRead 0x102C .word twoEngines).1.map (fun s => s.machine.engine.errcode) = [0x04#8, 0x00#8] := by decide +kernel

end Sys2Proof.Tests
end

/-! ## What a step does to the engine -/

namespace Sys2Proof.Machine

/-- The performance of `i` as an operation on the engine alone (40_commands.md R102); `exec_eq_performed` ties it to
exec. -/
def Engine.performed (i : Instr) (e : Engine) : Engine :=
  match i with
  | .nop => e.retire
  | .init => e.freshHashState.retire
  | .update n => (e.pushBytes (updateBytes n e.operandData)).retire
  | .finalize => e.storeDigest.retire
  | .setreg => (e.loadHash e.operandHin).retire

theorem exec_eq_performed (i : Instr) (s : State) : exec i s = .next (s.onEngine (Engine.performed i)) := by
  cases i <;> rfl

@[simp] theorem Engine.performed_pending (i : Instr) (e : Engine) : (e.performed i).pending = none := by
  cases i <;> rfl

@[simp] theorem Engine.performed_busy (i : Instr) (e : Engine) : (e.performed i).busy = false := by
  cases i <;> rfl

@[simp] theorem Engine.performed_dataIn (i : Instr) (e : Engine) : (e.performed i).dataIn = e.dataIn := by
  cases i <;> simp [Engine.performed]

@[simp] theorem Engine.performed_hin (i : Instr) (e : Engine) : (e.performed i).hin = e.hin := by
  cases i <;> simp [Engine.performed]

@[simp] theorem Engine.performed_err (i : Instr) (e : Engine) : (e.performed i).err = e.err := by
  cases i <;> simp [Engine.performed]

@[simp] theorem Engine.performed_errcode (i : Instr) (e : Engine) : (e.performed i).errcode = e.errcode := by
  cases i <;> simp [Engine.performed]

/-- DVALID is set by FINALIZE, and no other performance writes it (10_state.md R30). -/
theorem Engine.performed_dvalid (i : Instr) (e : Engine) :
    (e.performed i).dvalid = if i = .finalize then true else e.dvalid := by
  cases i <;> simp [Engine.performed]

/-- Of the commands only FINALIZE writes DIGEST. -/
theorem Engine.performed_digest {i : Instr} (other : i ≠ .finalize) (e : Engine) :
    (e.performed i).digest = e.digest := by
  cases i with
  | finalize => exact absurd rfl other
  | _ => simp [Engine.performed]

theorem step_of_engine {s : State} (who : s.nextAgent = .engine) : step s = engineStep s.advance := by
  simp [step, who]

theorem step_of_host {s : State} {k : Nat} (who : s.nextAgent = .host k) :
    step s = .next (s.advance.hostStep k) := by
  simp [step, who]

theorem step_of_reset {s : State} (who : s.nextAgent = .reset) : step s = .next s.advance.resetEngine := by
  simp [step, who]

theorem engineStep_of_pending {s : State} {p : Pending} (pend : s.engine.pending = some p) :
    engineStep s = .next (s.onEngine (Engine.performed p.cmd)) := by
  simp [engineStep, pend, exec_eq_performed]

theorem engineStep_of_idle {s : State} (idle : s.engine.pending = none) : engineStep s = .next s := by
  simp [engineStep, idle]

/-- A Host's step is the bus access `accessOf` names, or leaves the engine alone. -/
theorem hostStep_engine {s : State} {k : Nat} (who : s.nextAgent = .host k) :
    (accessOf s = none ∧ (s.advance.hostStep k).engine = s.engine) ∨
    ∃ a, accessOf s = some a ∧ (s.advance.hostStep k).engine = (busAccess a s.engine s.draws).engine := by
  unfold accessOf State.hostStep
  simp only [who, State.advance_hosts]
  cases hostAt : s.hosts[k]? with
  | none => exact .inl ⟨rfl, rfl⟩
  | some h =>
    cases prog : h.program with
    | nil => exact .inl ⟨by simp [prog], by simp [prog]⟩
    | cons op rest => exact .inr ⟨op.toAccess, by simp [prog], by simp [prog]⟩

/-- What one step makes of the engine of `s` (20_memory.md R61): the pending command performed, one bus access, the
reset values, or nothing. -/
inductive EngineMove (s : State) : Engine → Prop where
  | performs (p : Pending) (who : s.nextAgent = .engine) (pend : s.engine.pending = some p) :
      EngineMove s (s.engine.performed p.cmd)
  | accesses (a : Access) (k : Nat) (who : s.nextAgent = .host k) (acc : accessOf s = some a) :
      EngineMove s (busAccess a s.engine s.draws).engine
  | resets (who : s.nextAgent = .reset) : EngineMove s Engine.reset
  | rests (who : s.nextAgent ≠ .reset) (idle : s.nextAgent = .engine → s.engine.pending = none)
      (acc : accessOf s = none) : EngineMove s s.engine

theorem accessOf_of_engine {s : State} (who : s.nextAgent = .engine) : accessOf s = none := by
  simp [accessOf, who]

theorem accessOf_of_reset {s : State} (who : s.nextAgent = .reset) : accessOf s = none := by
  simp [accessOf, who]

/-- Every step answers a next state whose engine is one of the moves. -/
theorem step_answers_engineMove (s : State) : ∃ t, step s = .next t ∧ EngineMove s t.engine := by
  cases who : s.nextAgent with
  | engine =>
    cases pend : s.engine.pending with
    | none =>
      exact ⟨s.advance, (step_of_engine who).trans (engineStep_of_idle pend),
        .rests (by simp [who]) (fun _ => pend) (accessOf_of_engine who)⟩
    | some p => exact ⟨_, (step_of_engine who).trans (engineStep_of_pending pend), .performs p who pend⟩
  | host k =>
    refine ⟨_, step_of_host who, ?_⟩
    obtain ⟨acc, same⟩ | ⟨a, acc, eq⟩ := hostStep_engine who
    · exact same ▸ .rests (by simp [who]) (by simp [who]) acc
    · exact eq ▸ .accesses a k who acc
  | reset => exact ⟨_, step_of_reset who, .resets who⟩

theorem engineMove_of_step {s t : State} (h : step s = .next t) : EngineMove s t.engine := by
  obtain ⟨u, hu, move⟩ := step_answers_engineMove s
  obtain rfl : u = t := by simpa [hu] using h
  exact move

end Sys2Proof.Machine

/-! ## The engine's invariant -/

namespace Sys2Proof.Machine

theorem decodeLenZero_legal {len : BitVec 3} {i j : Instr} (h : decodeLenZero len i = .legal j) : i = j := by
  unfold decodeLenZero at h
  split at h
  · simpa using h
  · cases h

/-- The decoder answers only commands some word encodes (30_encoding.md R73, R74). -/
theorem wellFormed_of_decode {c : Word} {i : Instr} (h : decode c = .legal i) : WellFormed i = true := by
  unfold decode at h
  split at h
  · cases h
  split at h
  · cases decodeLenZero_legal h; rfl
  split at h
  · cases decodeLenZero_legal h; rfl
  split at h
  · split at h
    · rename_i short
      cases h
      simpa [WellFormed] using short
    · cases h
  split at h
  · cases decodeLenZero_legal h; rfl
  split at h
  · cases decodeLenZero_legal h; rfl
  · cases h

theorem EngineInv.reset : EngineInv Engine.reset := by decide

theorem errorCodeValue_range (c : ErrorCode) : 1 ≤ (errorCodeValue c).toNat ∧ (errorCodeValue c).toNat ≤ 4 := by
  cases c <;> decide

theorem EngineInv.raiseError {e : Engine} (inv : EngineInv e) (c : ErrorCode) : EngineInv (e.raiseError c) := by
  obtain ⟨busy, legal, blocks, record, fresh⟩ := inv
  unfold Engine.raiseError
  split
  · exact ⟨busy, legal, blocks, record, fresh⟩
  · exact ⟨busy, legal, blocks, ⟨fun _ => errorCodeValue_range c, by simp⟩, fresh⟩

theorem EngineInv.clearError {e : Engine} (inv : EngineInv e) : EngineInv e.clearError := by
  obtain ⟨busy, legal, blocks, -, fresh⟩ := inv
  exact ⟨busy, legal, blocks, ⟨by simp, fun _ => rfl⟩, fresh⟩

/-- Acceptance keeps DVALID only for a NOP, which leaves the HashState and DIGEST as they are. -/
theorem EngineInv.accept {e : Engine} (inv : EngineInv e) {i : Instr} (legal : WellFormed i = true) :
    EngineInv (e.accept i) := by
  obtain ⟨-, -, blocks, record, fresh⟩ := inv
  refine ⟨rfl, legal, blocks, record, fun valid => ?_⟩
  cases i with
  | nop => exact ⟨rfl, (fresh valid).2⟩
  | _ => cases valid

theorem EngineInv.busAccess {e : Engine} (inv : EngineInv e) (a : Access) (k : DrawKey) :
    EngineInv (busAccess a e k).engine := by
  obtain h | ⟨c, h⟩ | ⟨c, i, -, dec, h⟩ | h | ⟨v, h⟩ | ⟨n, v, h⟩ := busAccess_cases a e k <;> rw [h]
  · exact inv
  · exact inv.raiseError c
  · exact inv.accept (wellFormed_of_decode dec)
  · exact inv.clearError
  · exact inv
  · exact inv

/-- A pending command other than NOP has cleared DVALID at its acceptance. -/
theorem EngineInv.dvalid_of_pending {e : Engine} (inv : EngineInv e) {p : Pending} (pend : e.pending = some p)
    (other : p.cmd ≠ .nop) : e.dvalid = false := by
  obtain ⟨-, -, -, -, fresh⟩ := inv
  cases valid : e.dvalid with
  | false => rfl
  | true => exact absurd (fresh valid).1 (by simp [idleOrNop, pend, other])

/-- Stream bytes move TOTAL by whole blocks, and 2^64 is a whole number of blocks. -/
theorem TotalInBlocks.pushBytes {e : Engine} (blocks : TotalInBlocks e) (bs : List Byte) :
    TotalInBlocks (e.pushBytes bs) := by
  obtain ⟨-, total, -, -⟩ := Engine.pushBytes_spec bs e
  unfold TotalInBlocks at blocks ⊢
  rw [total]
  omega

theorem EngineInv.performed {e : Engine} (inv : EngineInv e) {p : Pending} (pend : e.pending = some p) :
    EngineInv (e.performed p.cmd) := by
  have invalid := inv.dvalid_of_pending pend
  obtain ⟨-, -, blocks, record, fresh⟩ := inv
  refine ⟨by simp [BusyMatchesPending], by simp [pendingWellFormed], ?_, by simpa [ErrorRecordLegal] using record,
    fun valid => ⟨by simp [idleOrNop], ?_⟩⟩
  · cases p.cmd with
    | nop => exact blocks
    | init => exact Nat.zero_mod 64
    | update n => exact TotalInBlocks.pushBytes blocks _
    | finalize => exact blocks
    | setreg => exact blocks
  · cases cmd : p.cmd with
    | nop =>
      rw [cmd] at valid
      exact (fresh valid).2
    | finalize => rfl
    | _ => simp [cmd, Engine.performed_dvalid, invalid] at valid

theorem EngineInv.move {s : State} (inv : Inv s) {f : Engine} (move : EngineMove s f) : EngineInv f := by
  cases move with
  | performs p _ pend => exact EngineInv.performed inv pend
  | accesses a => exact EngineInv.busAccess inv a s.draws
  | resets => exact EngineInv.reset
  | rests => exact inv

/-- Settles O13: Engine.reset meets every clause of the invariant. -/
theorem invariantHoldsAtReset : Obligations.InvariantHoldsAtReset := EngineInv.reset

/-- Settles O14: each of the engine's moves keeps the invariant. -/
theorem everyStepKeepsTheInvariant : Obligations.EveryStepKeepsTheInvariant :=
  fun _ _ inv h => EngineInv.move inv (engineMove_of_step h)

/-- Settles O11: the fields of State.reset. -/
theorem resetValues : Obligations.ResetValues := by
  unfold Obligations.ResetValues
  exact ⟨rfl, rfl, rfl, rfl, rfl, rfl, rfl, rfl, rfl, rfl, rfl⟩

end Sys2Proof.Machine

/-! ## What the commands leave of the HashState -/

namespace Sys2Proof.Machine

/-- NOP and FINALIZE leave H as it is (42_finalize.md R143). -/
theorem Engine.performed_h {i : Instr} (transparent : i = .nop ∨ i = .finalize) (e : Engine) :
    (e.performed i).h = e.h := by
  obtain rfl | rfl := transparent <;> rfl

/-- Only UPDATE stores tail bytes. -/
theorem Engine.performed_tail {i : Instr} (other : ∀ n, i ≠ .update n) (e : Engine) :
    (e.performed i).tail = e.tail := by
  cases i with
  | update n => exact absurd rfl (other n)
  | _ => rfl

/-- NOP, FINALIZE and SETREG leave the byte count as it is (10_state.md R26). -/
theorem Engine.performed_count {i : Instr} (keeps : i = .nop ∨ i = .finalize ∨ i = .setreg) (e : Engine) :
    (e.performed i).tailLen = e.tailLen ∧ (e.performed i).total = e.total := by
  obtain rfl | rfl | rfl := keeps <;> exact ⟨rfl, rfl⟩

/-- Settles O20: the frame of each command's performance. -/
theorem performanceFrame : Obligations.PerformanceFrame := by
  intro i s
  exact ⟨_, exec_eq_performed i s, Engine.performed_pending i _, Engine.performed_busy i _,
    fun transparent => Engine.performed_h transparent _, fun other => Engine.performed_tail other _,
    fun keeps => Engine.performed_count keeps _,
    fun other => ⟨Engine.performed_digest other _, by simp [Engine.performed_dvalid, other]⟩,
    Engine.performed_dataIn i _, Engine.performed_hin i _, Engine.performed_err i _, Engine.performed_errcode i _,
    rfl, rfl, rfl⟩

/-- Bytes that do not fill the tail leave H as it is (41_update.md R122). -/
theorem Engine.pushBytes_h_of_room {e : Engine} {bs : List Byte} (room : e.tailLen.toNat + bs.length < 64) :
    (e.pushBytes bs).h = e.h := by
  obtain ⟨h, -, -, -⟩ := Engine.pushBytes_spec bs e
  rw [h, blocksOf_short (by simpa using room), List.foldl_nil]

/-- At most 64 bytes fill the tail at most once: TOTAL stays or advances by 64 modulo 2^64. -/
theorem Engine.pushBytes_total {e : Engine} {bs : List Byte} (few : bs.length ≤ 64) :
    (e.pushBytes bs).total = e.total ∨ (e.pushBytes bs).total.toNat = (e.total.toNat + 64) % 2 ^ 64 := by
  obtain ⟨-, total, -, -⟩ := Engine.pushBytes_spec bs e
  have room := e.tailLen.isLt
  obtain none | one : (e.tailBytes ++ bs).length / 64 = 0 ∨ (e.tailBytes ++ bs).length / 64 = 1 := by
    rw [List.length_append, Engine.tailBytes_length]; omega
  · left
    apply BitVec.eq_of_toNat_eq
    rw [total, none, Nat.mul_zero, Nat.add_zero, Nat.mod_eq_of_lt e.total.isLt]
  · right
    rw [total, one]

/-- TOTAL + TAIL_LEN counts the bytes pushed, modulo 2^64 (10_state.md R27). -/
theorem Engine.pushBytes_count (bs : List Byte) (e : Engine) :
    ((e.pushBytes bs).total.toNat + (e.pushBytes bs).tailLen.toNat) % 2 ^ 64 =
      (e.total.toNat + e.tailLen.toNat + bs.length) % 2 ^ 64 := by
  obtain ⟨-, total, len, -⟩ := Engine.pushBytes_spec bs e
  rw [List.length_append, Engine.tailBytes_length] at total len
  rw [total, len]
  omega

/-- No bus access writes the HashState (10_state.md R22, R26). -/
theorem busAccess_hashState (a : Access) (e : Engine) (k : DrawKey) :
    (busAccess a e k).engine.h = e.h ∧ (busAccess a e k).engine.tail = e.tail ∧
      (busAccess a e k).engine.tailLen = e.tailLen ∧ (busAccess a e k).engine.total = e.total := by
  obtain h | ⟨c, h⟩ | ⟨c, i, -, -, h⟩ | h | ⟨v, h⟩ | ⟨n, v, h⟩ := busAccess_cases a e k <;> simp [h]

theorem EngineMove.writes_h {s : State} {f : Engine} (move : EngineMove s f) (changed : f.h ≠ s.engine.h) :
    s.nextAgent = .reset ∨
      (s.nextAgent = .engine ∧ ∃ p, s.engine.pending = some p ∧
        (p.cmd = .init ∨ p.cmd = .setreg ∨
          ∃ n, p.cmd = .update n ∧ 64 ≤ s.engine.tailLen.toNat + n.toNat)) := by
  cases move with
  | performs p who pend =>
    refine .inr ⟨who, p, pend, ?_⟩
    cases cmd : p.cmd with
    | nop => exact absurd (Engine.performed_h (.inl cmd) _) changed
    | init => exact .inl rfl
    | update n =>
      refine .inr (.inr ⟨n, rfl, ?_⟩)
      by_contra room
      rw [cmd] at changed
      exact changed (Engine.pushBytes_h_of_room (by rw [updateBytes_length]; omega))
    | finalize => exact absurd (Engine.performed_h (.inr cmd) _) changed
    | setreg => exact .inr (.inl rfl)
  | accesses a => exact absurd (busAccess_hashState a _ _).1 changed
  | resets who => exact .inl who
  | rests => exact absurd rfl changed

/-- Settles O43: an access writes no HashState, and an UPDATE that leaves room in the tail folds no block. -/
theorem hashRegistersWrittenOnlyByTheirCommands : Obligations.HashRegistersWrittenOnlyByTheirCommands :=
  fun _ _ h changed => (engineMove_of_step h).writes_h changed

theorem EngineMove.writes_total {s : State} {f : Engine} (move : EngineMove s f)
    (changed : f.total ≠ s.engine.total) :
    (s.nextAgent = .reset ∧ f.total = 0#64) ∨
      (s.nextAgent = .engine ∧ ∃ p, s.engine.pending = some p ∧
        ((p.cmd = .init ∧ f.total = 0#64) ∨
          (∃ n, p.cmd = .update n) ∧ f.total.toNat = (s.engine.total.toNat + 64) % 2 ^ 64)) := by
  cases move with
  | performs p who pend =>
    refine .inr ⟨who, p, pend, ?_⟩
    cases cmd : p.cmd with
    | init => exact .inl ⟨rfl, rfl⟩
    | update n =>
      rw [cmd] at changed
      have few : (updateBytes n s.engine.operandData).length ≤ 64 := by rw [updateBytes_length]; omega
      exact .inr ⟨⟨n, rfl⟩, (Engine.pushBytes_total few).resolve_left changed⟩
    | nop => exact absurd (Engine.performed_count (.inl cmd) _).2 changed
    | finalize => exact absurd (Engine.performed_count (.inr (.inl cmd)) _).2 changed
    | setreg => exact absurd (Engine.performed_count (.inr (.inr cmd)) _).2 changed
  | accesses a =>
    obtain ⟨-, -, -, total⟩ := busAccess_hashState a s.engine s.draws
    exact absurd total changed
  | resets who => exact .inl ⟨who, rfl⟩
  | rests => exact absurd rfl changed

/-- Settles O44: four bytes fill the tail at most once. -/
theorem totalChangesInThreeWays : Obligations.TotalChangesInThreeWays :=
  fun _ _ h changed => (engineMove_of_step h).writes_total changed

/-! ## The byte count of a stream -/

/-- The bytes of the HashState so far, TOTAL + TAIL_LEN, before the reduction modulo 2^64 (10_state.md R27). -/
def Engine.byteCount (e : Engine) : Nat := e.total.toNat + e.tailLen.toNat

/-- A command issued is its acceptance and its performance. -/
theorem issue_eq (i : Instr) (s : State) :
    issue i s = .next (s.onEngine fun e => (e.accept i).performed i) :=
  exec_eq_performed i _

/-- A legal stream command delivers its bytes to the count. -/
theorem StreamCommand.run_byteCount {c : StreamCommand} (legal : c.legal = true) (s : State) :
    ∃ t, c.run s = .next t ∧
      t.engine.byteCount % 2 ^ 64 = (s.engine.byteCount + c.bytes.length) % 2 ^ 64 := by
  cases c with
  | update n data =>
    refine ⟨_, issue_eq _ _, ?_⟩
    have few : n.toNat ≤ 4 := by simpa [StreamCommand.legal, BitVec.le_def] using legal
    have delivered : (StreamCommand.update n data).bytes.length = (updateBytes n data).length := by
      simp [StreamCommand.bytes, few]
    rw [delivered]
    exact Engine.pushBytes_count _ _
  | finalize => exact ⟨_, issue_eq _ _, rfl⟩
  | nop => exact ⟨_, issue_eq _ _, rfl⟩

theorem runStream_byteCount {cs : List StreamCommand} (legal : legalStream cs = true) (s : State) :
    ∃ t, runStream cs s = .next t ∧
      t.engine.byteCount % 2 ^ 64 = (s.engine.byteCount + (streamBytes cs).length) % 2 ^ 64 := by
  induction cs generalizing s with
  | nil => exact ⟨s, rfl, rfl⟩
  | cons c cs ih =>
    simp only [legalStream, List.all_cons, Bool.and_eq_true] at legal
    obtain ⟨legalHead, legalRest⟩ := legal
    obtain ⟨t, run, count⟩ := StreamCommand.run_byteCount legalHead s
    obtain ⟨u, runRest, countRest⟩ := ih legalRest t
    refine ⟨u, by simpa [runStream, run, andThen] using runRest, ?_⟩
    simp only [streamBytes, List.flatMap_cons, List.length_append] at countRest ⊢
    omega

/-- Settles O24: INIT leaves the count 0, and the stream adds its bytes. -/
theorem byteCountSinceInit : Obligations.ByteCountSinceInit := by
  intro s cs legal
  obtain ⟨t, run, count⟩ := runStream_byteCount legal (s.onEngine fun e => (e.accept .init).performed .init)
  refine ⟨t, by rw [issue_eq]; exact run, ?_⟩
  have fresh : (s.onEngine fun e => (e.accept .init).performed .init).engine.byteCount = 0 := rfl
  rw [fresh, Nat.zero_add] at count
  exact count

end Sys2Proof.Machine

/-! ## What a Host reads -/

namespace Sys2Proof.Machine

/-- A full-word read at a register's offset passes the checks. -/
theorem busAccess_read_reg (r : Reg) (e : Engine) (k : DrawKey) :
    busAccess (.read r.offset .word) e k =
      ⟨e, some (e.readReg r k), if e.drawsOnRead r then k.next else k⟩ := by
  simp [busAccess, busRead, checkAccess_offset]

/-- With BUSY = 0 the exact value is read and nothing is drawn. -/
theorem busAccess_read_idle (r : Reg) {e : Engine} (idle : e.busy = false) (k : DrawKey) :
    busAccess (.read r.offset .word) e k = ⟨e, some (e.regValue r), k⟩ := by
  simp [busAccess_read_reg, Engine.readReg, Engine.drawsOnRead, idle]

/-- The fields of a STATUS word (10_state.md R35). -/
theorem statusWord_fields (tailLen : BitVec 6) (errcode : BitVec 8) (err dvalid busy : Bool) :
    let w := statusWord tailLen errcode err dvalid busy
    w.extractLsb' 22 10 = 0#10 ∧ w.extractLsb' 16 6 = tailLen ∧ w.extractLsb' 8 8 = errcode ∧
      w.extractLsb' 3 5 = 0#5 ∧ w.getLsbD 2 = err ∧ w.getLsbD 1 = dvalid ∧ w.getLsbD 0 = busy := by
  refine ⟨?_, ?_, ?_, ?_, ?_, ?_, ?_⟩ <;> unfold statusWord
  iterate 4
    · simp (disch := decide) only [BitVec.extractLsb'_append_eq_of_le, BitVec.extractLsb'_append_eq_of_add_le,
        Nat.reduceSub, BitVec.extractLsb'_eq_self]
  all_goals simp only [BitVec.getLsbD_append, Nat.reduceLT, Nat.reduceSub, if_true, if_false, BitVec.getLsbD_ofBool,
    decide_true, Bool.true_and]

/-- The TAIL_LEN field a read of STATUS shows: a draw while BUSY = 1 (70_reset_and_hazards.md R247). -/
theorem readReg_status (e : Engine) (k : DrawKey) :
    e.readReg .status k =
      statusWord (if e.busy then Config.freeTailLen k else e.tailLen) e.errcode e.err e.dvalid e.busy := by
  cases busy : e.busy <;>
    simp [Engine.readReg, Engine.drawsOnRead, Reg.unspecifiedWhileBusy, Engine.drawnValue, Engine.regValue, busy]

/-- Settles O36: the word read is a STATUS word, its TAIL_LEN field a draw while BUSY = 1. -/
theorem statusFields : Obligations.StatusFields := by
  intro e k
  obtain ⟨reserved, tailLen, errcode, reserved', err, dvalid, busy⟩ :=
    statusWord_fields (if e.busy then Config.freeTailLen k else e.tailLen) e.errcode e.err e.dvalid e.busy
  refine ⟨_, _, busAccess_read_reg .status e k, ?_⟩
  rw [readReg_status]
  exact ⟨reserved, errcode, reserved', err, dvalid, busy, fun idle => by simpa [idle] using tailLen⟩

theorem Words5.get_eq_getD (x : Words5) (i : Fin 5) : x.get i = [x.w0, x.w1, x.w2, x.w3, x.w4].getD i.val 0 := by
  fin_cases i <;> rfl

/-- Byte c of five words is byte 3 - (c mod 4), the least significant 0, of word c div 4. -/
theorem bytesOf5_getD (x : Words5) (c : Fin 20) :
    (bytesOf5 x).getD c.val 0 = (x.get ⟨c.val / 4, by omega⟩).extractLsb' (8 * (3 - c.val % 4)) 8 := by
  fin_cases c <;> rfl

/-- Settles O52, by the word and the place of each digest byte. -/
theorem digestBytesAreBigEndian : Obligations.DigestBytesAreBigEndian := by
  intro e k c idle
  refine ⟨rfl, _, busAccess_read_idle (.digest ⟨c.val / 4, by omega⟩) idle k, ?_⟩
  rw [Engine.digestBytes, bytesOf5_getD, BitVec.extractLsb'_toNat, Nat.shiftRight_eq_div_pow, Nat.pow_mul]
  rfl

theorem hexDigit_toNat (n : BitVec 4) :
    (hexDigit n).toNat = if n.toNat ≤ 9 then 0x30 + n.toNat else 0x61 + (n.toNat - 10) := by
  revert n; decide

/-- Character i of a HEX word, the leftmost in bits 31:24, is the digit of nibble i of the half word. -/
theorem hexWord_char (half : BitVec 16) (i : Fin 4) :
    (hexWord half).extractLsb' (8 * (3 - i.val)) 8 = hexDigit (half.extractLsb' (4 * (3 - i.val)) 4) := by
  unfold hexWord
  fin_cases i <;>
    simp (disch := decide) only [BitVec.extractLsb'_append_eq_of_le, BitVec.extractLsb'_append_eq_of_add_le,
      Nat.reduceSub, Nat.reduceMul, BitVec.extractLsb'_eq_self]

/-- A field of a field is a field of the whole. -/
theorem extractLsb'_of_extractLsb' {w : Nat} (x : BitVec w) (start len inner width : Nat)
    (inside : inner + width ≤ len) :
    (x.extractLsb' start len).extractLsb' inner width = x.extractLsb' (start + inner) width := by
  apply BitVec.eq_of_getLsbD_eq
  intro b hb
  have within : inner + b < len := by omega
  simp only [BitVec.getLsbD_extractLsb', within, decide_true, Bool.true_and, Nat.add_assoc]

/-- Nibble i of the half word of HEXj is nibble 4 (j mod 2) + i of word j div 2, the most significant first. -/
theorem hexHalf_nibble (x : Words5) (j : Fin 10) (i : Fin 4) :
    (hexHalf x j).extractLsb' (4 * (3 - i.val)) 4 =
      (x.get ⟨j.val / 2, by omega⟩).extractLsb' (4 * (7 - (4 * (j.val % 2) + i.val))) 4 := by
  unfold hexHalf
  split
  · rw [extractLsb'_of_extractLsb' _ _ _ _ _ (by omega)]
    congr 1
    omega
  · rw [extractLsb'_of_extractLsb' _ _ _ _ _ (by omega)]
    congr 1
    omega

/-- Character c of the hex digest is the digit of nibble c of the five words, the most significant first (10_state.md
R40). -/
theorem hexWord_hexHalf_char (x : Words5) (c : Fin 40) :
    (hexWord (hexHalf x ⟨c.val / 4, by omega⟩)).extractLsb' (8 * (3 - c.val % 4)) 8 =
      hexDigit ((x.get ⟨c.val / 8, by omega⟩).extractLsb' (4 * (7 - c.val % 8)) 4) := by
  have nibble : 4 * (c.val / 4 % 2) + c.val % 4 = c.val % 8 := by omega
  have word : c.val / 4 / 2 = c.val / 8 := by omega
  have char := hexWord_char (hexHalf x ⟨c.val / 4, by omega⟩) ⟨c.val % 4, by omega⟩
  rw [hexHalf_nibble] at char
  simp only [nibble, word] at char
  exact char

theorem extractLsb'_nibble_toNat (w : Word) (i : Nat) :
    (w.extractLsb' (4 * i) 4).toNat = w.toNat / 16 ^ i % 16 := by
  rw [BitVec.extractLsb'_toNat, Nat.shiftRight_eq_div_pow, Nat.pow_mul]

/-- Settles O37, by the nibble each character shows. -/
theorem hexDigestCharacters : Obligations.HexDigestCharacters := by
  intro e k c idle
  refine ⟨_, busAccess_read_idle (.hex ⟨c.val / 4, by omega⟩) idle k, ?_⟩
  rw [Engine.regValue, hexWord_hexHalf_char, hexDigit_toNat, extractLsb'_nibble_toNat, Words5.get_eq_getD]

end Sys2Proof.Machine

/-! ## The error an access reports -/

namespace Sys2Proof.Machine

theorem wordOf_toNat (off : BitVec 7) : (wordOf off).toNat = off.toNat - off.toNat % 4 := by
  have below : off % 4#7 ≤ off := by
    rw [BitVec.le_def, BitVec.toNat_umod]
    exact Nat.mod_le _ _
  rw [wordOf, BitVec.toNat_sub_of_le below, BitVec.toNat_umod]
  rfl

theorem isFull_iff (off : BitVec 7) (size : Size) :
    isFull off size = true ↔ size = .word ∧ off.toNat % 4 = 0 := by
  simp [isFull, BitVec.toNat_eq]

/-- The map has no register exactly at the six unmapped words (10_state.md R41). -/
theorem regAt_wordOf_eq_none (off : BitVec 7) :
    regAt (wordOf off) = none ↔ off.toNat - off.toNat % 4 ∈ unmappedWords := by
  revert off; decide

theorem Reg.isHin_iff (r : Reg) : r.isHin = true ↔ r.offset.toNat ∈ hinWords := by
  cases r with
  | hin n => revert n; decide
  | digest n => revert n; decide
  | hex j => revert j; decide
  | _ => decide

/-- A register's offset is a mapped word. -/
theorem Reg.offset_mapped (r : Reg) : r.offset.toNat % 4 = 0 ∧ r.offset.toNat ∉ unmappedWords := by
  cases r with
  | hin n => revert n; decide
  | digest n => revert n; decide
  | hex j => revert j; decide
  | _ => decide

/-- What passes the checks is one aligned 4-byte access at the register's offset. -/
theorem checkAccess_pass {off : BitVec 7} {size : Size} {isWrite : Bool} {r : Reg}
    (h : checkAccess off size isWrite = .pass r) : size = .word ∧ off = r.offset := by
  unfold checkAccess at h
  split at h
  · cases h
  · rename_i found
    split at h
    · cases h
    split at h
    · cases h
    · rename_i full
      cases h
      obtain ⟨sizeWord, aligned⟩ := (isFull_iff off size).mp (by simpa using full)
      refine ⟨sizeWord, BitVec.eq_of_toNat_eq ?_⟩
      rw [regAt_offset found, wordOf_toNat, aligned, Nat.sub_zero]

/-- A refused access falls in an unmapped word, or is not one aligned 4-byte access (45_bus_access.md R192). -/
theorem checkAccess_refuse {off : BitVec 7} {size : Size} {isWrite : Bool} {code : ErrorCode}
    (h : checkAccess off size isWrite = .refuse code) :
    (off.toNat - off.toNat % 4 ∈ unmappedWords ∧ code = .badAccess) ∨
    (off.toNat - off.toNat % 4 ∉ unmappedWords ∧ ¬ (size = .word ∧ off.toNat % 4 = 0) ∧
      code = if isWrite = true ∧ off.toNat - off.toNat % 4 ∈ hinWords then .invalidInputLength else .badAccess) := by
  unfold checkAccess at h
  split at h
  · rename_i unmapped
    cases h
    exact .inl ⟨(regAt_wordOf_eq_none off).mp unmapped, rfl⟩
  · rename_i r found
    have mapped := mt (regAt_wordOf_eq_none off).mpr (by simp [found])
    have inHin := r.isHin_iff
    rw [regAt_offset found, wordOf_toNat] at inHin
    simp only [← isFull_iff, ← inHin]
    split at h
    · rename_i refused
      simp only [Bool.and_eq_true, Bool.not_eq_true'] at refused
      obtain ⟨hinWrite, notFull⟩ := refused
      cases h
      exact .inr ⟨mapped, by simp [notFull], by rw [if_pos hinWrite]⟩
    split at h
    · rename_i other notFull
      simp only [Bool.not_eq_true'] at notFull
      cases h
      exact .inr ⟨mapped, by simp [notFull], by rw [if_neg (by simpa [notFull] using other)]⟩
    · cases h

/-- The error of a refused access is the one the checks answer (60_exceptions.md R213). -/
theorem errorOf_read_of_refuse {off : BitVec 7} {size : Size} {code : ErrorCode} (e : Engine)
    (h : checkAccess off size false = .refuse code) : errorOf (.read off size) e = some code := by
  obtain ⟨unmapped, rfl⟩ | ⟨mapped, partly, rfl⟩ := checkAccess_refuse h
  · simp only [errorOf, if_pos unmapped]
  · simp [errorOf, mapped, partly]

theorem errorOf_write_of_refuse {off : BitVec 7} {size : Size} {code : ErrorCode} (v : Word) (e : Engine)
    (h : checkAccess off size true = .refuse code) : errorOf (.write off size v) e = some code := by
  obtain ⟨unmapped, rfl⟩ | ⟨mapped, partly, rfl⟩ := checkAccess_refuse h
  · simp only [errorOf, if_pos unmapped]
  · by_cases inHin : off.toNat - off.toNat % 4 ∈ hinWords <;> simp [errorOf, mapped, partly, inHin]

/-- A full-word write at a register's offset passes the checks. -/
theorem busAccess_write_reg (r : Reg) (v : Word) (e : Engine) (k : DrawKey) :
    busAccess (.write r.offset .word v) e k = ⟨e.writeReg r v, none, k⟩ := by
  simp [busAccess, busWrite, checkAccess_offset]

theorem errorOf_read_reg (r : Reg) (e : Engine) : errorOf (.read r.offset .word) e = none := by
  obtain ⟨aligned, mapped⟩ := r.offset_mapped
  simp [errorOf, aligned, mapped]

/-- The registers no write stores to: ID, TOTAL_LO, TOTAL_HI, DIGEST0..4, HEX0..9 (45_bus_access.md R196). -/
def Reg.isReadOnly (r : Reg) : Bool :=
  match r with
  | .cmd => false
  | .status => false
  | .dataIn => false
  | .hin _ => false
  | _ => true

theorem Reg.isReadOnly_iff (r : Reg) : r.offset.toNat ∈ readOnlyWords ↔ r.isReadOnly = true := by
  cases r with
  | hin n => revert n; decide
  | digest n => revert n; decide
  | hex j => revert j; decide
  | _ => decide

theorem Reg.offset_eq_cmd_iff (r : Reg) : r.offset.toNat = 0x04 ↔ r = .cmd := by
  cases r with
  | hin n => revert n; decide
  | digest n => revert n; decide
  | hex j => revert j; decide
  | _ => decide

/-- A checked write reports what its register and, for CMD, BUSY and the word say. -/
theorem errorOf_write_reg (r : Reg) (v : Word) (e : Engine) :
    errorOf (.write r.offset .word v) e =
      if r.isReadOnly = true then some .badAccess
      else if r = .cmd ∧ e.busy = true then some .cmdWhileBusy
      else if r = .cmd ∧ isIllegal v = true then some .illegalCmd
      else none := by
  obtain ⟨aligned, mapped⟩ := r.offset_mapped
  simp [errorOf, aligned, mapped, Reg.isReadOnly_iff, Reg.offset_eq_cmd_iff]

/-- What an access makes of the engine, beside the error it reports: the error recorded, a command accepted, the error
record cleared, or at most a staging register written (45_bus_access.md R191 to R196). -/
inductive AccessEffect (a : Access) (e : Engine) : Engine → Prop where
  | refused (code : ErrorCode) (error : errorOf a e = some code) : AccessEffect a e (e.raiseError code)
  | accepted (c : Word) (i : Instr) (isCmd : a = .write 0x04#7 .word c) (idle : e.busy = false)
      (dec : decode c = .legal i) (fine : errorOf a e = none) : AccessEffect a e (e.accept i)
  | cleared (v : Word) (isStatus : a = .write 0x08#7 .word v) (bit : v.getLsbD 2 = true)
      (fine : errorOf a e = none) : AccessEffect a e e.clearError
  | staged (data : Word) (hin : Words5) (fine : errorOf a e = none) :
      AccessEffect a e { e with dataIn := data, hin := hin }

theorem writeReg_effect (r : Reg) (v : Word) (e : Engine) :
    AccessEffect (.write r.offset .word v) e (e.writeReg r v) := by
  have error := errorOf_write_reg r v e
  cases r with
  | cmd =>
    obtain ⟨busy, h⟩ | ⟨idle, i, dec, h⟩ | ⟨idle, why, dec, h⟩ := offerCommand_cases v e <;>
      simp only [Engine.writeReg, h]
    · exact .refused _ (by simpa [Reg.isReadOnly, busy] using error)
    · exact .accepted v i rfl idle dec (by simpa [Reg.isReadOnly, idle, isIllegal, dec] using error)
    · exact .refused _ (by simpa [Reg.isReadOnly, idle, isIllegal, dec] using error)
  | status =>
    simp only [Engine.writeReg]
    split
    · exact .cleared v rfl ‹_› error
    · exact .staged e.dataIn e.hin error
  | dataIn => exact .staged v e.hin error
  | hin n => exact .staged e.dataIn (e.hin.set n v) (by simpa [Reg.isReadOnly] using error)
  | _ => exact .refused .badAccess error

theorem busAccess_effect (a : Access) (e : Engine) (k : DrawKey) :
    AccessEffect a e (busAccess a e k).engine := by
  cases a with
  | read off size =>
    simp only [busAccess, busRead]
    split
    · exact .refused _ (errorOf_read_of_refuse e ‹_›)
    · rename_i r pass
      obtain ⟨rfl, rfl⟩ := checkAccess_pass pass
      exact .staged e.dataIn e.hin (errorOf_read_reg r e)
  | write off size v =>
    simp only [busAccess, busWrite]
    split
    · exact .refused _ (errorOf_write_of_refuse v e ‹_›)
    · rename_i r pass
      obtain ⟨rfl, rfl⟩ := checkAccess_pass pass
      exact writeReg_effect r v e

end Sys2Proof.Machine

/-! ## The flags: what sets and clears them -/

namespace Sys2Proof.Machine

/-- The numbers of 60_exceptions.md R210. -/
theorem mem_errorNumbers (code : ErrorCode) (number : BitVec 8) :
    (code, number) ∈ [(ErrorCode.illegalCmd, 0x01#8), (.cmdWhileBusy, 0x02#8), (.invalidInputLength, 0x03#8),
      (.badAccess, 0x04#8)] ↔ number = errorCodeValue code := by
  cases code <;> simp [errorCodeValue]

theorem dvalidAfterAccept_eq (i : Instr) (dvalid : Bool) :
    dvalidAfterAccept i dvalid = if i = .nop then dvalid else false := by
  cases i <;> rfl

section Access

variable {a : Access} {e f : Engine}

theorem AccessEffect.busy_set (effect : AccessEffect a e f) (before : e.busy = false) (after : f.busy = true) :
    ∃ c i, a = .write 0x04#7 .word c ∧ decode c = .legal i ∧ f.pending = some ⟨i, e.dataIn, e.hin⟩ := by
  cases effect with
  | refused code => simp [before] at after
  | accepted c i isCmd _ dec => exact ⟨c, i, isCmd, dec, rfl⟩
  | cleared => simp [before] at after
  | staged => simp [before] at after

theorem AccessEffect.busy_kept (effect : AccessEffect a e f) (before : e.busy = true) : f.busy = true := by
  cases effect with
  | refused code => simpa using before
  | accepted => rfl
  | cleared => exact before
  | staged => exact before

/-- No access sets DVALID. -/
theorem AccessEffect.dvalid_not_set (effect : AccessEffect a e f) (before : e.dvalid = false) :
    f.dvalid = false := by
  cases effect with
  | refused code => simpa using before
  | accepted c i => simp [dvalidAfterAccept_eq, before]
  | cleared => exact before
  | staged => exact before

theorem AccessEffect.dvalid_cleared (effect : AccessEffect a e f) (before : e.dvalid = true)
    (after : f.dvalid = false) :
    e.busy = false ∧ ∃ c i, a = .write 0x04#7 .word c ∧ decode c = .legal i ∧ i ≠ .nop := by
  cases effect with
  | refused code => simp [before] at after
  | accepted c i isCmd idle dec =>
    exact ⟨idle, c, i, isCmd, dec, fun nop => by simp [dvalidAfterAccept_eq, nop, before] at after⟩
  | cleared => simp [before] at after
  | staged => simp [before] at after

theorem AccessEffect.err_set (effect : AccessEffect a e f) (before : e.err = false) (after : f.err = true) :
    ∃ code, errorOf a e = some code ∧ f.errcode = errorCodeValue code := by
  cases effect with
  | refused code error => exact ⟨code, error, by simp [Engine.raiseError_errcode, before]⟩
  | accepted => simp [before] at after
  | cleared => simp at after
  | staged => simp [before] at after

theorem AccessEffect.err_cleared (effect : AccessEffect a e f) (before : e.err = true) (after : f.err = false) :
    ∃ v, a = .write 0x08#7 .word v ∧ v.getLsbD 2 = true := by
  cases effect with
  | refused code => simp at after
  | accepted => simp [before] at after
  | cleared v isStatus bit => exact ⟨v, isStatus, bit⟩
  | staged => simp [before] at after

theorem AccessEffect.errcode_changed (effect : AccessEffect a e f) (changed : f.errcode ≠ e.errcode) :
    (∃ v, a = .write 0x08#7 .word v ∧ v.getLsbD 2 = true) ∨ (e.err = false ∧ f.err = true) := by
  cases effect with
  | refused code =>
    refine .inr ⟨?_, Engine.raiseError_err code e⟩
    by_contra kept
    simp [Engine.raiseError_errcode, kept] at changed
  | accepted => exact absurd rfl changed
  | cleared v isStatus bit => exact .inl ⟨v, isStatus, bit⟩
  | staged => exact absurd rfl changed

/-- An access that a check fails leaves the engine as recording that error does. -/
theorem AccessEffect.of_error (effect : AccessEffect a e f) {code : ErrorCode} (error : errorOf a e = some code) :
    f = e.raiseError code := by
  cases effect with
  | refused code' error' =>
    obtain rfl : code' = code := by simpa [error'] using error
    rfl
  | accepted _ _ _ _ _ fine => simp [fine] at error
  | cleared _ _ _ fine => simp [fine] at error
  | staged _ _ fine => simp [fine] at error

end Access

/-! ## The flags over a step -/

section Move

variable {s : State} {f : Engine}

theorem EngineMove.busy_set (move : EngineMove s f) (before : s.engine.busy = false) (after : f.busy = true) :
    ∃ c i, accessOf s = some (.write 0x04#7 .word c) ∧ decode c = .legal i ∧
      f.pending = some ⟨i, s.engine.dataIn, s.engine.hin⟩ := by
  cases move with
  | performs p => simp at after
  | accesses a k who acc =>
    obtain ⟨c, i, isCmd, dec, pend⟩ := (busAccess_effect a _ _).busy_set before after
    exact ⟨c, i, isCmd ▸ acc, dec, pend⟩
  | resets => cases after
  | rests => simp [before] at after

theorem EngineMove.busy_cleared (move : EngineMove s f) (before : s.engine.busy = true) (after : f.busy = false) :
    s.nextAgent = .reset ∨ (s.nextAgent = .engine ∧ s.engine.pending ≠ none) := by
  cases move with
  | performs p who pend => exact .inr ⟨who, by simp [pend]⟩
  | accesses a => simp [(busAccess_effect a _ _).busy_kept before] at after
  | resets who => exact .inl who
  | rests => simp [before] at after

theorem EngineMove.dvalid_set (move : EngineMove s f) (before : s.engine.dvalid = false) (after : f.dvalid = true) :
    s.nextAgent = .engine ∧ ∃ p, s.engine.pending = some p ∧ p.cmd = .finalize := by
  cases move with
  | performs p who pend =>
    refine ⟨who, p, pend, ?_⟩
    by_contra other
    simp [Engine.performed_dvalid, other, before] at after
  | accesses a => simp [(busAccess_effect a _ _).dvalid_not_set before] at after
  | resets => cases after
  | rests => simp [before] at after

theorem EngineMove.dvalid_cleared (move : EngineMove s f) (before : s.engine.dvalid = true)
    (after : f.dvalid = false) :
    s.nextAgent = .reset ∨
      (s.engine.busy = false ∧
        ∃ c i, accessOf s = some (.write 0x04#7 .word c) ∧ decode c = .legal i ∧ i ≠ .nop) := by
  cases move with
  | performs p => simp [Engine.performed_dvalid, before] at after
  | accesses a k who acc =>
    obtain ⟨idle, c, i, isCmd, dec, other⟩ := (busAccess_effect a _ _).dvalid_cleared before after
    exact .inr ⟨idle, c, i, isCmd ▸ acc, dec, other⟩
  | resets who => exact .inl who
  | rests => simp [before] at after

theorem EngineMove.err_set (move : EngineMove s f) (before : s.engine.err = false) (after : f.err = true) :
    ∃ a code, accessOf s = some a ∧ errorOf a s.engine = some code ∧ f.errcode = errorCodeValue code := by
  cases move with
  | performs p => simp [before] at after
  | accesses a k who acc =>
    obtain ⟨code, error, number⟩ := (busAccess_effect a _ _).err_set before after
    exact ⟨a, code, acc, error, number⟩
  | resets => cases after
  | rests => simp [before] at after

theorem EngineMove.err_cleared (move : EngineMove s f) (before : s.engine.err = true) (after : f.err = false) :
    s.nextAgent = .reset ∨ ∃ v, accessOf s = some (.write 0x08#7 .word v) ∧ v.getLsbD 2 = true := by
  cases move with
  | performs p => simp [before] at after
  | accesses a k who acc =>
    obtain ⟨v, isStatus, bit⟩ := (busAccess_effect a _ _).err_cleared before after
    exact .inr ⟨v, isStatus ▸ acc, bit⟩
  | resets who => exact .inl who
  | rests => simp [before] at after

theorem EngineMove.errcode_changed (move : EngineMove s f) (changed : f.errcode ≠ s.engine.errcode) :
    s.nextAgent = .reset ∨ (∃ v, accessOf s = some (.write 0x08#7 .word v) ∧ v.getLsbD 2 = true) ∨
      (s.engine.err = false ∧ f.err = true) := by
  cases move with
  | performs p => simp at changed
  | accesses a k who acc =>
    obtain ⟨v, isStatus, bit⟩ | recorded := (busAccess_effect a _ _).errcode_changed changed
    · exact .inr (.inl ⟨v, isStatus ▸ acc, bit⟩)
    · exact .inr (.inr recorded)
  | resets who => exact .inl who
  | rests => exact absurd rfl changed

/-- The Engine's own step leaves the error record alone (60_exceptions.md R217). -/
theorem EngineMove.errorRecord_kept (move : EngineMove s f) (engineMoves : s.nextAgent = .engine) :
    f.err = s.engine.err ∧ f.errcode = s.engine.errcode := by
  cases move with
  | performs p => simp
  | accesses a k who => simp [who] at engineMoves
  | resets who => simp [who] at engineMoves
  | rests => exact ⟨rfl, rfl⟩

theorem EngineMove.of_reset (move : EngineMove s f) (who : s.nextAgent = .reset) : f = Engine.reset := by
  cases move with
  | performs p who' => simp [who] at who'
  | accesses a k who' => simp [who] at who'
  | resets => rfl
  | rests other => exact absurd who other

theorem EngineMove.of_pending (move : EngineMove s f) {p : Pending} (who : s.nextAgent = .engine)
    (pend : s.engine.pending = some p) : f = s.engine.performed p.cmd := by
  cases move with
  | performs q _ pend' =>
    obtain rfl : q = p := by simpa [pend'] using pend
    rfl
  | accesses a k who' => simp [who] at who'
  | resets who' => simp [who] at who'
  | rests _ idle => simp [idle who] at pend

theorem EngineMove.of_access (move : EngineMove s f) {a : Access} (acc : accessOf s = some a) :
    f = (busAccess a s.engine s.draws).engine := by
  cases move with
  | performs p who => simp [accessOf_of_engine who] at acc
  | accesses a' k who acc' =>
    obtain rfl : a' = a := by simpa [acc'] using acc
    rfl
  | resets who => simp [accessOf_of_reset who] at acc
  | rests _ _ none => simp [none] at acc

end Move

/-- Settles O45: what each of the engine's moves can do to each flag. -/
theorem flagsWrittenOnlyByTheirRules : Obligations.FlagsWrittenOnlyByTheirRules := by
  intro s t h
  have move := engineMove_of_step h
  simp only [mem_errorNumbers]
  exact ⟨move.busy_set, move.busy_cleared, move.dvalid_set, move.dvalid_cleared, move.err_set, move.err_cleared,
    move.errcode_changed, move.errorRecord_kept⟩

/-- An idle engine accepts the legal word a Host writes to CMD (40_commands.md R101). -/
theorem busAccess_cmd_accepts {c : Word} {i : Instr} {e : Engine} (idle : e.busy = false)
    (dec : decode c = .legal i) (k : DrawKey) :
    (busAccess (.write 0x04#7 .word c) e k).engine = e.accept i := by
  have write := busAccess_write_reg .cmd c e k
  simp only [Reg.offset] at write
  simp [write, Engine.writeReg, Engine.offerCommand, idle, dec]

/-- A STATUS write with bit 2 set clears the error record (45_bus_access.md R194). -/
theorem busAccess_status_clears {v : Word} (bit : v.getLsbD 2 = true) (e : Engine) (k : DrawKey) :
    (busAccess (.write 0x08#7 .word v) e k).engine = e.clearError := by
  have write := busAccess_write_reg .status v e k
  simp only [Reg.offset] at write
  simp [write, Engine.writeReg, clearBit, bit]

/-- Settles O54: which of the moves a step is, and what that move writes. -/
theorem eachRuleWritesItsFlags : Obligations.EachRuleWritesItsFlags := by
  intro s
  obtain ⟨t, h, move⟩ := step_answers_engineMove s
  refine ⟨t, h, fun who => ?_, fun p who pend => ?_, fun c i acc idle dec => ?_,
    fun a code number acc error listed => ?_, fun v acc bit => ?_⟩
  · rw [move.of_reset who]
    exact ⟨rfl, rfl, rfl, rfl⟩
  · rw [move.of_pending who pend]
    exact ⟨by simp, Engine.performed_dvalid _ _, by simp, by simp⟩
  · rw [move.of_access acc, busAccess_cmd_accepts idle dec]
    exact ⟨rfl, dvalidAfterAccept_eq i _, rfl, rfl⟩
  · obtain rfl := (mem_errorNumbers code number).mp listed
    rw [move.of_access acc, (busAccess_effect a _ _).of_error error]
    exact ⟨by simp, by simp, by simp, Engine.raiseError_errcode code _⟩
  · rw [move.of_access acc, busAccess_status_clears bit]
    exact ⟨rfl, rfl, rfl, rfl⟩

end Sys2Proof.Machine

/-! ## TAIL's unused bytes -/

namespace Sys2Proof.Machine

/-- Alike engines agree on every element but TAIL, and on TAIL's meaningful bytes. -/
theorem alikeButUnusedTail_iff (e f : Engine) : AlikeButUnusedTail e f ↔
    (e.h = f.h ∧ e.tailLen = f.tailLen ∧ e.total = f.total ∧ e.dataIn = f.dataIn ∧ e.hin = f.hin ∧
      e.pending = f.pending ∧ e.busy = f.busy ∧ e.dvalid = f.dvalid ∧ e.err = f.err ∧ e.errcode = f.errcode ∧
      e.digest = f.digest) ∧ e.tailBytes = f.tailBytes := by
  cases e; cases f
  simp [AlikeButUnusedTail]

/-- The engine with other tail bytes. -/
def Engine.withTail (tail : Vector Byte 64) (e : Engine) : Engine := { e with tail := tail }

theorem AlikeButUnusedTail.eq_withTail {e f : Engine} (alike : AlikeButUnusedTail e f) :
    f = e.withTail f.tail :=
  alike.1.symm

theorem tailBytes_congr {e f : Engine} (tail : e.tail = f.tail) (len : e.tailLen = f.tailLen) :
    e.tailBytes = f.tailBytes := by
  rw [Engine.tailBytes, Engine.tailBytes, tail, len]

theorem raiseError_withTail (c : ErrorCode) (tail : Vector Byte 64) (e : Engine) :
    (e.withTail tail).raiseError c = (e.raiseError c).withTail tail := by
  cases err : e.err <;> simp [Engine.raiseError, Engine.withTail, err]

theorem offerCommand_withTail (c : Word) (tail : Vector Byte 64) (e : Engine) :
    (e.withTail tail).offerCommand c = (e.offerCommand c).withTail tail := by
  have busy : (e.withTail tail).busy = e.busy := rfl
  simp only [Engine.offerCommand, raiseError_withTail, busy]
  split
  · rfl
  · split <;> rfl

theorem writeReg_withTail (r : Reg) (v : Word) (tail : Vector Byte 64) (e : Engine) :
    (e.withTail tail).writeReg r v = (e.writeReg r v).withTail tail := by
  cases r with
  | cmd => exact offerCommand_withTail v tail e
  | status =>
    simp only [Engine.writeReg]
    split <;> rfl
  | dataIn => rfl
  | hin n => rfl
  | _ => exact raiseError_withTail .badAccess tail e

/-- A bus access reads no tail byte and writes none. -/
theorem busAccess_withTail (a : Access) (tail : Vector Byte 64) (e : Engine) (k : DrawKey) :
    busAccess a (e.withTail tail) k =
      { busAccess a e k with engine := (busAccess a e k).engine.withTail tail } := by
  cases a with
  | read off size =>
    simp only [busAccess, busRead]
    split
    · simp only [raiseError_withTail]
    · rename_i r _
      cases r <;> rfl
  | write off size v =>
    simp only [busAccess, busWrite]
    split
    · simp only [raiseError_withTail]
    · simp only [writeReg_withTail]

/-- Alike engines answer an access with the same reply and the same next draw, and stay alike. -/
theorem AlikeButUnusedTail.access {e f : Engine} (alike : AlikeButUnusedTail e f) (a : Access) (k : DrawKey) :
    AlikeButUnusedTail (busAccess a e k).engine (busAccess a f k).engine ∧
      (busAccess a e k).reply = (busAccess a f k).reply ∧ (busAccess a e k).draws = (busAccess a f k).draws := by
  obtain ⟨-, tailE, lenE, -⟩ := busAccess_hashState a e k
  obtain ⟨-, tailF, lenF, -⟩ := busAccess_hashState a f k
  have same : (busAccess a e k).engine.tailBytes = (busAccess a f k).engine.tailBytes :=
    calc (busAccess a e k).engine.tailBytes = e.tailBytes := tailBytes_congr tailE lenE
      _ = f.tailBytes := alike.2
      _ = (busAccess a f k).engine.tailBytes := (tailBytes_congr tailF lenF).symm
  have answer := busAccess_withTail a f.tail e k
  rw [← alike.eq_withTail] at answer
  refine ⟨⟨?_, same⟩, by rw [answer], by rw [answer]⟩
  rw [tailF, answer]
  rfl

/-- Stream bytes are appended to the meaningful bytes alone. -/
theorem AlikeButUnusedTail.pushBytes {e f : Engine} (alike : AlikeButUnusedTail e f) (bs : List Byte) :
    AlikeButUnusedTail (e.pushBytes bs) (f.pushBytes bs) := by
  obtain ⟨⟨h, -, total, dataIn, hin, pending, busy, dvalid, err, errcode, digest⟩, tail⟩ :=
    (alikeButUnusedTail_iff e f).mp alike
  obtain ⟨hE, totalE, lenE, tailE⟩ := Engine.pushBytes_spec bs e
  obtain ⟨hF, totalF, lenF, tailF⟩ := Engine.pushBytes_spec bs f
  rw [h, tail] at hE
  rw [total, tail] at totalE
  rw [tail] at lenE tailE
  refine (alikeButUnusedTail_iff _ _).mpr ⟨⟨hE.trans hF.symm, BitVec.eq_of_toNat_eq (lenE.trans lenF.symm),
    BitVec.eq_of_toNat_eq (totalE.trans totalF.symm), ?_⟩, tailE.trans tailF.symm⟩
  simp [dataIn, hin, pending, busy, dvalid, err, errcode, digest]

/-- A performance reads the operands, H, TOTAL and the meaningful tail bytes, and no other byte of TAIL. -/
theorem AlikeButUnusedTail.performed {e f : Engine} (alike : AlikeButUnusedTail e f) (i : Instr) :
    AlikeButUnusedTail (e.performed i) (f.performed i) := by
  obtain ⟨⟨h, len, total, dataIn, hin, pending, busy, dvalid, err, errcode, digest⟩, tail⟩ :=
    (alikeButUnusedTail_iff e f).mp alike
  rw [alikeButUnusedTail_iff]
  cases i with
  | nop => exact ⟨⟨h, len, total, dataIn, hin, rfl, rfl, dvalid, err, errcode, digest⟩, tail⟩
  | init => exact ⟨⟨rfl, rfl, rfl, dataIn, hin, rfl, rfl, dvalid, err, errcode, digest⟩, rfl⟩
  | update n =>
    have operand : e.operandData = f.operandData := by rw [Engine.operandData, Engine.operandData, pending, dataIn]
    obtain ⟨⟨h, len, total, dataIn, hin, -, -, dvalid, err, errcode, digest⟩, tail⟩ :=
      (alikeButUnusedTail_iff _ _).mp (alike.pushBytes (updateBytes n e.operandData))
    rw [Engine.performed, Engine.performed, ← operand]
    exact ⟨⟨h, len, total, dataIn, hin, rfl, rfl, dvalid, err, errcode, digest⟩, tail⟩
  | finalize =>
    have current : e.currentDigest = f.currentDigest := by
      rw [Engine.currentDigest, Engine.currentDigest, h, tail, total]
    exact ⟨⟨h, len, total, dataIn, hin, rfl, rfl, rfl, err, errcode, current⟩, tail⟩
  | setreg =>
    have operand : e.operandHin = f.operandHin := by rw [Engine.operandHin, Engine.operandHin, pending, hin]
    exact ⟨⟨operand, len, total, dataIn, hin, rfl, rfl, dvalid, err, errcode, digest⟩, tail⟩

/-- Two machines alike but for the unused tail bytes of their engines. -/
def State.Alike (s t : State) : Prop :=
  AlikeButUnusedTail s.engine t.engine ∧ s.hosts = t.hosts ∧ s.schedule = t.schedule ∧ s.draws = t.draws

theorem State.Alike.pending {s t : State} (alike : s.Alike t) : s.engine.pending = t.engine.pending := by
  obtain ⟨engines, -⟩ := alike
  rw [← engines.1]

theorem State.Alike.nextAgent {s t : State} (alike : s.Alike t) : s.nextAgent = t.nextAgent := by
  have pending := alike.pending
  obtain ⟨-, hosts, schedule, -⟩ := alike
  rw [State.nextAgent, State.nextAgent, pending, hosts, schedule]

theorem State.Alike.advance {s t : State} (alike : s.Alike t) : s.advance.Alike t.advance := by
  obtain ⟨engines, hosts, schedule, draws⟩ := alike
  exact ⟨engines, hosts, congrArg List.tail schedule, draws⟩

theorem State.Alike.hostStep {s t : State} (alike : s.Alike t) (k : Nat) : (s.hostStep k).Alike (t.hostStep k) := by
  obtain ⟨engines, hosts, schedule, draws⟩ := alike
  simp only [State.hostStep, hosts, draws]
  split
  · exact ⟨engines, hosts, schedule, draws⟩
  · split
    · exact ⟨engines, hosts, schedule, draws⟩
    · rename_i h _ op rest _
      obtain ⟨engines', reply, draws'⟩ := engines.access op.toAccess t.draws
      exact ⟨engines', by rw [reply], schedule, draws'⟩

theorem State.Alike.engineStep {s t s' t' : State} (alike : s.Alike t) (hs : engineStep s = .next s')
    (ht : engineStep t = .next t') : s'.Alike t' := by
  have pending := alike.pending
  cases pend : t.engine.pending with
  | none =>
    rw [engineStep_of_idle (pending.trans pend)] at hs
    rw [engineStep_of_idle pend] at ht
    cases hs
    cases ht
    exact alike
  | some p =>
    rw [engineStep_of_pending (pending.trans pend)] at hs
    rw [engineStep_of_pending pend] at ht
    cases hs
    cases ht
    obtain ⟨engines, others⟩ := alike
    exact ⟨engines.performed p.cmd, others⟩

theorem State.Alike.step {s t s' t' : State} (alike : s.Alike t) (hs : step s = .next s') (ht : step t = .next t') :
    s'.Alike t' := by
  have same := alike.nextAgent
  cases who : t.nextAgent with
  | engine =>
    rw [step_of_engine (same.trans who)] at hs
    rw [step_of_engine who] at ht
    exact alike.advance.engineStep hs ht
  | host k =>
    rw [step_of_host (same.trans who)] at hs
    rw [step_of_host who] at ht
    cases hs
    cases ht
    exact alike.advance.hostStep k
  | reset =>
    rw [step_of_reset (same.trans who)] at hs
    rw [step_of_reset who] at ht
    cases hs
    cases ht
    obtain ⟨-, others⟩ := alike.advance
    exact ⟨⟨rfl, rfl⟩, others⟩

/-- Settles O46: every agent's step keeps machines alike. -/
theorem unusedTailBytesNeverMatter : Obligations.UnusedTailBytesNeverMatter :=
  fun _ _ _ _ engines hosts schedule draws hs ht =>
    State.Alike.step ⟨engines, hosts, schedule, draws⟩ hs ht

end Sys2Proof.Machine

/-! ## Who moves, and the access a Host makes -/

namespace Sys2Proof.Machine

theorem nextAgent_of_scheduled {s : State} {a : Agent} {rest : List Agent} (due : s.schedule = a :: rest) :
    s.nextAgent = a := by
  simp [State.nextAgent, due]

theorem advance_of_scheduled {s : State} {a : Agent} {rest : List Agent} (due : s.schedule = a :: rest) :
    s.advance = { s with schedule := rest } := by
  simp [State.advance, due]

/-- Settles O5: the schedule's head is the next agent, and each agent's step starts where the head is used up. -/
theorem scheduleDecidesWhoMoves : Obligations.ScheduleDecidesWhoMoves := by
  intro s a rest due
  have who := nextAgent_of_scheduled due
  rw [← advance_of_scheduled due]
  cases a with
  | engine => exact step_of_engine who
  | host k => exact step_of_host who
  | reset =>
    rw [step_of_reset who, advance_of_scheduled due]
    rfl

/-- A Host with an operation left makes its bus access, whole (20_memory.md R57). -/
theorem hostStep_of_op {s : State} {k : Nat} {h : HostAgent} {op : HostOp} {rest : List HostOp}
    (hostAt : s.hosts[k]? = some h) (prog : h.program = op :: rest) :
    s.hostStep k =
      { s with
        engine := (busAccess op.toAccess s.engine s.draws).engine
        draws := (busAccess op.toAccess s.engine s.draws).draws
        hosts := s.hosts.set k (h.after op rest (busAccess op.toAccess s.engine s.draws).reply) } := by
  simp [State.hostStep, hostAt, prog]

/-- A plain access is used up, and the value it returned, if any, is received. -/
theorem HostAgent.after_access (h : HostAgent) (a : Access) (rest : List HostOp) (reply : Option Word) :
    h.after (.access a) rest reply = ⟨rest, reply.toList ++ h.received⟩ := rfl

/-- Writing a place that a list has puts the new element there. -/
theorem getElem?_set_of_getElem? {α : Type} {l : List α} {k : Nat} {old : α} (there : l[k]? = some old) (new : α) :
    (l.set k new)[k]? = some new := by
  rw [List.getElem?_set_self', there, Option.map_eq_map, Option.map_some, Function.const_apply]

/-- Settles O47: the Host's step is the bus access of its program's head, and only place k of the Hosts is written. -/
theorem hostStepIsItsNextAccess : Obligations.HostStepIsItsNextAccess := by
  intro s k h a rest who hostAt prog
  refine ⟨_, step_of_host who, ?_⟩
  rw [hostStep_of_op (s := s.advance) hostAt prog, HostAgent.after_access]
  exact ⟨rfl, rfl, getElem?_set_of_getElem? hostAt _, fun j other => List.getElem?_set_ne other.symm⟩

end Sys2Proof.Machine

/-! ## The windows of a platform -/

namespace Sys2Proof.Machine

theorem inWindow_iff (base addr : Nat) : inWindow base addr = true ↔ base ≤ addr ∧ addr < base + 0x80 := by
  rw [inWindow, Config.windowSize, Bool.and_eq_true, decide_eq_true_iff, decide_eq_true_iff]

/-- The offset from a base that is a multiple of 0x80 is the low 7 address bits (20_memory.md R53). -/
theorem windowOffset_eq_low_bits {base addr : Nat} (aligned : base % 0x80 = 0) (above : base ≤ addr) :
    windowOffset base addr = BitVec.ofNat 7 (addr % 0x80) := by
  apply BitVec.eq_of_toNat_eq
  simp only [windowOffset, BitVec.toNat_ofNat]
  omega

theorem windowsApart_iff (p : Platform) :
    windowsApart p = true ↔ (∀ slot ∈ p, slot.base % 0x80 = 0) ∧ (p.map Slot.base).Nodup := by
  simp [windowsApart, Config.windowSize]

/-- Aligned windows that share an address are one window. -/
theorem base_eq_of_inWindow {b c addr : Nat} (alignedB : b % 0x80 = 0) (alignedC : c % 0x80 = 0)
    (inB : inWindow b addr = true) (inC : inWindow c addr = true) : b = c := by
  rw [inWindow_iff] at inB inC
  omega

/-- No two windows of a platform hold one address. -/
theorem index_eq_of_inWindow {p : Platform} {addr j k : Nat} {a b : Slot} (apart : windowsApart p = true)
    (atJ : p[j]? = some a) (atK : p[k]? = some b) (inA : inWindow a.base addr = true)
    (inB : inWindow b.base addr = true) : j = k := by
  obtain ⟨aligned, distinct⟩ := (windowsApart_iff p).mp apart
  have sameBase := base_eq_of_inWindow (aligned a (List.mem_of_getElem? atJ)) (aligned b (List.mem_of_getElem? atK))
    inA inB
  obtain ⟨inside, -⟩ := List.getElem?_eq_some_iff.mp atJ
  refine (List.getElem?_inj (by simpa using inside) distinct).mp ?_
  rw [List.getElem?_map, List.getElem?_map, atJ, atK, Option.map_some, Option.map_some, sameBase]

theorem instanceAt_eq_none {p : Platform} {addr : Nat} (outside : ∀ slot ∈ p, inWindow slot.base addr = false) :
    instanceAt p addr = none := by
  rw [instanceAt, List.findIdx?_eq_none_iff]
  exact outside

/-- `instanceAt` finds the slot whose window holds the address. -/
theorem instanceAt_eq_some {p : Platform} {addr k : Nat} {slot : Slot} (apart : windowsApart p = true)
    (at_ : p[k]? = some slot) (inside : inWindow slot.base addr = true) : instanceAt p addr = some k := by
  cases found : instanceAt p addr with
  | none =>
    have outside := List.findIdx?_eq_none_iff.mp found slot (List.mem_of_getElem? at_)
    simp [inside] at outside
  | some j =>
    obtain ⟨short, holds, -⟩ := List.findIdx?_eq_some_iff_getElem.mp found
    rw [index_eq_of_inWindow apart (List.getElem?_eq_getElem short) at_ holds inside]

/-- An access outside every window reaches no engine (20_memory.md R53). -/
theorem platformAccess_outside {p : Platform} {addr : Nat} (outside : ∀ slot ∈ p, inWindow slot.base addr = false)
    (at_ : BitVec 7 → Access) : platformAccess addr at_ p = (p, none) := by
  simp [platformAccess, instanceAt_eq_none outside]

/-- The slot after a bus access to its engine: the base, Hosts and schedule stay. -/
def Slot.accessed (slot : Slot) (a : Access) : Slot :=
  let r := busAccess a slot.machine.engine slot.machine.draws
  ⟨slot.base, { slot.machine with engine := r.engine, draws := r.draws }⟩

/-- An access in the window of slot k is that slot's own bus access at the low 7 address bits (20_memory.md R53). -/
theorem platformAccess_inside {p : Platform} {addr k : Nat} {slot : Slot} (apart : windowsApart p = true)
    (slotAt : p[k]? = some slot) (inside : inWindow slot.base addr = true) (at_ : BitVec 7 → Access) :
    platformAccess addr at_ p =
      (p.set k (slot.accessed (at_ (BitVec.ofNat 7 (addr % 0x80)))),
        (busAccess (at_ (BitVec.ofNat 7 (addr % 0x80))) slot.machine.engine slot.machine.draws).reply) := by
  obtain ⟨aligned, -⟩ := (windowsApart_iff p).mp apart
  obtain ⟨above, -⟩ := (inWindow_iff _ _).mp inside
  rw [← windowOffset_eq_low_bits (aligned slot (List.mem_of_getElem? slotAt)) above]
  simp [platformAccess, instanceAt_eq_some apart slotAt inside, slotAt, Slot.accessed]

/-- Settles O51: outside every window no slot is found; inside one, only its place in the platform is written. -/
theorem accessReachesOnlyItsWindow : Obligations.AccessReachesOnlyItsWindow := by
  intro p addr size v apart
  refine ⟨fun outside => ?_, fun k slot slotAt above below => ?_⟩
  · have noWindow : ∀ slot ∈ p, inWindow slot.base addr = false := fun slot mem =>
      Bool.eq_false_iff.mpr (mt (inWindow_iff _ _).mp (outside slot mem))
    exact ⟨platformAccess_outside noWindow _, by rw [platformWrite, platformAccess_outside noWindow]⟩
  · have access := platformAccess_inside apart slotAt ((inWindow_iff _ _).mpr ⟨above, below⟩)
    rw [platformRead, platformWrite, access, access]
    exact ⟨rfl, getElem?_set_of_getElem? slotAt _, getElem?_set_of_getElem? slotAt _,
      fun j other => ⟨List.getElem?_set_ne other.symm, List.getElem?_set_ne other.symm⟩⟩

end Sys2Proof.Machine

/-! ## Command words -/

namespace Sys2Proof

/-- RSV, LEN and OPCODE are all of a command word (30_encoding.md R70). -/
theorem append_fields (c : Word) : rsvOf c ++ lenOf c ++ opcodeOf c = c := by
  have upper : rsvOf c ++ lenOf c = c.extractLsb' 8 24 := BitVec.extractLsb'_append_extractLsb'_eq_extractLsb' rfl
  have whole : c.extractLsb' 8 24 ++ opcodeOf c = c.extractLsb' 0 32 :=
    BitVec.extractLsb'_append_extractLsb'_eq_extractLsb' rfl
  rw [upper, whole, BitVec.extractLsb'_eq_self]

theorem encode_update (len : BitVec 3) : encode (.update len) = 0#21 ++ len ++ 0x02#8 := by
  revert len; decide

/-- A command whose LEN must be 0 is read only from a word whose other fields are the command's. -/
theorem encode_of_decodeLenZero {c : Word} {i j : Instr} {opcode : BitVec 8} (rsv : rsvOf c = 0#21)
    (op : opcodeOf c = opcode) (fields : encode i = 0#21 ++ 0#3 ++ opcode)
    (h : decodeLenZero (lenOf c) i = .legal j) : encode j = c := by
  unfold decodeLenZero at h
  split at h
  · rename_i len
    cases h
    rw [fields, ← rsv, ← len, ← op, append_fields]
  · cases h

/-- Only the word of a command decodes to it: each branch of the decoder fixes all three fields. -/
theorem encode_of_decode {c : Word} {i : Instr} (h : decode c = .legal i) : encode i = c := by
  unfold decode at h
  split at h
  · cases h
  rename_i rsv
  replace rsv := not_not.mp rsv
  split at h
  · rename_i op; exact encode_of_decodeLenZero rsv op rfl h
  split at h
  · rename_i op; exact encode_of_decodeLenZero rsv op rfl h
  split at h
  · rename_i op
    split at h
    · cases h
      rw [encode_update, ← rsv, ← op, append_fields]
    · cases h
  split at h
  · rename_i op; exact encode_of_decodeLenZero rsv op rfl h
  split at h
  · rename_i op; exact encode_of_decodeLenZero rsv op rfl h
  · cases h

theorem decode_encode {i : Instr} (legal : WellFormed i = true) : decode (encode i) = .legal i := by
  cases i with
  | update len => revert len; decide
  | _ => rfl

/-- Settles O1: the decoder reads back what the encoder writes, and takes no other word for the command. -/
theorem decodeAgreesWithEncode : Obligations.DecodeAgreesWithEncode := by
  intro c i
  constructor
  · intro dec
    exact ⟨Machine.wellFormed_of_decode dec, encode_of_decode dec⟩
  · rintro ⟨legal, rfl⟩
    exact decode_encode legal

/-- The nine commands some word encodes, in the order of the opcode map (30_encoding.md R72); `mem_commands_iff` ties
the list to `WellFormed`. -/
def commands : List Instr :=
  [.nop, .init, .update 0#3, .update 1#3, .update 2#3, .update 3#3, .update 4#3, .finalize, .setreg]

theorem mem_commands_iff (i : Instr) : i ∈ commands ↔ WellFormed i = true := by
  cases i with
  | update len => revert len; decide
  | _ => decide

/-- A word is legal exactly when it is the word of one of the nine commands. -/
theorem decode_eq_legal_iff (c : Word) (i : Instr) :
    decode c = .legal i ↔ (c, i) ∈ commands.map fun i => (encode i, i) := by
  rw [decodeAgreesWithEncode, ← mem_commands_iff, List.mem_map]
  constructor
  · rintro ⟨mem, rfl⟩
    exact ⟨i, mem, rfl⟩
  · rintro ⟨j, mem, pair⟩
    cases pair
    exact ⟨mem, rfl⟩

/-- Settles O2: the nine pairs are the nine commands with their encodings. -/
theorem exactlyNineLegalWords : Obligations.ExactlyNineLegalWords := decode_eq_legal_iff

theorem decode_illegal_iff_forall_not_legal (c : Word) :
    (∃ why, decode c = .illegal why) ↔ ∀ i, decode c ≠ .legal i := by
  cases decode c <;> simp

/-- The illegal words, as numbers: those of none of the nine commands. -/
theorem decode_illegal_iff_not_mem (c : Word) :
    (∃ why, decode c = .illegal why) ↔ c.toNat ∉ commands.map fun i => (encode i).toNat := by
  rw [decode_illegal_iff_forall_not_legal]
  simp only [ne_eq, decodeAgreesWithEncode c, ← mem_commands_iff, List.mem_map, BitVec.toNat_inj, not_exists]

theorem toNat_encode_commands :
    (commands.map fun i => (encode i).toNat) = [0x000, 0x001, 0x002, 0x102, 0x202, 0x302, 0x402, 0x003, 0x004] := rfl

/-- Settles O3: the numbers that are none of the nine words are those with a reserved bit set, an unknown OPCODE or a
LEN the OPCODE does not take. -/
theorem illegalWordsExactly : Obligations.IllegalWordsExactly := by
  intro c
  rw [decode_illegal_iff_not_mem, toNat_encode_commands]
  simp only [List.mem_cons, List.not_mem_nil, or_false]
  omega

/-- Settles O4, by evaluating the decoder at each word. -/
theorem sampleWordsDecode : Obligations.SampleWordsDecode := by
  unfold Obligations.SampleWordsDecode
  decide

end Sys2Proof

/-! ## Host programs -/

namespace Sys2Proof.Machine

theorem busyBit_readReg_status (e : Engine) (k : DrawKey) : busyBit (e.readReg .status k) = e.busy := by
  rw [readReg_status]
  obtain ⟨-, -, -, -, -, -, busy⟩ :=
    statusWord_fields (if e.busy then Config.freeTailLen k else e.tailLen) e.errcode e.err e.dvalid e.busy
  exact busy

/-- A poll of WAIT leaves the program as it is until the word read shows BUSY = 0; the word is received either way. -/
theorem HostAgent.after_wait (h : HostAgent) (rest : List HostOp) (w : Word) :
    h.after .wait rest (some w) = ⟨if busyBit w = true then h.program else rest, w :: h.received⟩ := by
  cases busy : busyBit w <;> simp [HostAgent.after, HostOp.finished, busy]

/-- Settles O48: WAIT's access is the read of STATUS, whose bit 0 is BUSY. -/
theorem waitPollsUntilNotBusy : Obligations.WaitPollsUntilNotBusy := by
  intro s k h rest who hostAt prog
  refine ⟨_, s.engine.readReg .status s.draws, step_of_host who, ?_⟩
  rw [hostStep_of_op (s := s.advance) hostAt prog, HostOp.toAccess, busAccess_read_reg, HostAgent.after_wait, prog]
  simp only [State.advance_engine, State.advance_draws, busyBit_readReg_status]
  exact ⟨trivial, busAccess_read_reg .status _ _, busyBit_readReg_status _ _, getElem?_set_of_getElem? hostAt _,
    fun j other => List.getElem?_set_ne other.symm⟩

/-- FEED of one group of at most four bytes: DATA_IN padded with zero bytes, UPDATE of the group's length, WAIT
(30_encoding.md R77). -/
def feedChunk (g : List Byte) : List HostOp :=
  [.access (.write 0x0C#7 .word (g.getD 0 0 ++ g.getD 1 0 ++ g.getD 2 0 ++ g.getD 3 0)),
    .access (.write 0x04#7 .word (BitVec.ofNat 32 (0x00000002 + 256 * g.length))), .wait]

theorem encode_update_eq_ofNat (n : BitVec 3) :
    encode (.update n) = BitVec.ofNat 32 (0x00000002 + 256 * n.toNat) := by
  revert n; decide

theorem feedGroup_eq_feedChunk {g : List Byte} {n : BitVec 3} (len : n.toNat = g.length) :
    feedGroup (be32 (g.getD 0 0) (g.getD 1 0) (g.getD 2 0) (g.getD 3 0)) n = feedChunk g := by
  rw [feedGroup, opCmd, encode_update_eq_ofNat, len]
  rfl

/-- FEED of consecutive groups of four bytes, the last possibly shorter; `feedOps_eq_feedChunks` ties it to the model's
recursion. -/
def feedChunks (bytes : List Byte) : List HostOp :=
  (List.range ((bytes.length + 3) / 4)).flatMap fun j => feedChunk ((bytes.drop (4 * j)).take 4)

theorem feedChunks_of_short {g : List Byte} (nonempty : 0 < g.length) (short : g.length ≤ 4) :
    feedChunks g = feedChunk g := by
  have one : (g.length + 3) / 4 = 1 := by omega
  simp [feedChunks, one, List.take_of_length_le short]

/-- The last group: the whole of a byte sequence of one to four bytes. -/
theorem feedGroup_eq_feedChunks {g : List Byte} {n : BitVec 3} (len : n.toNat = g.length) (nonempty : 0 < g.length)
    (short : g.length ≤ 4) : feedGroup (be32 (g.getD 0 0) (g.getD 1 0) (g.getD 2 0) (g.getD 3 0)) n = feedChunks g := by
  rw [feedGroup_eq_feedChunk len, feedChunks_of_short nonempty short]

theorem feedChunks_cons4 (b0 b1 b2 b3 : Byte) (rest : List Byte) :
    feedChunks (b0 :: b1 :: b2 :: b3 :: rest) = feedChunk [b0, b1, b2, b3] ++ feedChunks rest := by
  have more : ((b0 :: b1 :: b2 :: b3 :: rest).length + 3) / 4 = (rest.length + 3) / 4 + 1 := by simp; omega
  rw [feedChunks, more, List.range_succ_eq_map, List.flatMap_cons, List.flatMap_map]
  rfl

theorem feedOps_eq_feedChunks (bytes : List Byte) : feedOps bytes = feedChunks bytes := by
  induction bytes using feedOps.induct with
  | case1 b0 b1 b2 b3 rest ih =>
    rw [feedChunks_cons4, ← ih]
    exact congrArg (· ++ feedOps rest) (feedGroup_eq_feedChunk (g := [b0, b1, b2, b3]) rfl)
  | case2 b0 b1 b2 => exact feedGroup_eq_feedChunks (g := [b0, b1, b2]) rfl (by simp) (by simp)
  | case3 b0 b1 => exact feedGroup_eq_feedChunks (g := [b0, b1]) rfl (by simp) (by simp)
  | case4 b0 => exact feedGroup_eq_feedChunks (g := [b0]) rfl (by simp) (by simp)
  | case5 => rfl

/-- Settles O49, by induction on the groups of four bytes. -/
theorem feedExpansion : Obligations.FeedExpansion := feedOps_eq_feedChunks

theorem expand_wr (r : Reg) (v : Word) : (HostLine.wr r v).expand = [.access (.write r.offset .word v)] := rfl

theorem expand_rd (r : Reg) : (HostLine.rd r).expand = [.access (.read r.offset .word)] := rfl

theorem expand_cmd (i : Instr) : (HostLine.cmd i).expand = [.access (.write 0x04#7 .word (encode i))] := rfl

/-- Settles O55: the pseudo-instructions unfold to the listed accesses, and the two tables are those of `Reg.offset` and
`encode`. -/
theorem hostLineExpansions : Obligations.HostLineExpansions := by
  refine ⟨fun v => rfl, rfl, rfl, rfl, rfl, fun line mem => ?_, fun line mem => ?_⟩
  · have offset : line.1.offset = line.2 := by revert line; decide
    exact ⟨fun v => by rw [expand_wr, offset], by rw [expand_rd, offset]⟩
  · have word : encode line.1 = line.2 := by revert line; decide
    rw [expand_cmd, word]

end Sys2Proof.Machine

/-! ## Acceptance and performance of a command -/

namespace Sys2Proof.Machine

/-- Acceptance, element by element (40_commands.md R101). -/
theorem Engine.accept_eq (i : Instr) (e : Engine) :
    e.accept i = { e with
      pending := some ⟨i, e.dataIn, e.hin⟩
      busy := true
      dvalid := if i = .nop then e.dvalid else false } := by
  rw [Engine.accept, dvalidAfterAccept_eq]
  rfl

/-- Settles O40: the three branches of the acceptance check, each with its effect written out. -/
theorem cmdWriteAcceptance : Obligations.CmdWriteAcceptance := by
  intro e c k
  refine (busAccess_write_reg .cmd c e k).trans ?_
  rw [Engine.writeReg]
  obtain ⟨busy, offer⟩ | ⟨idle, i, dec, offer⟩ | ⟨idle, why, dec, offer⟩ := offerCommand_cases c e
  · rw [offer, if_pos busy]
    rfl
  · have notBusy : ¬ e.busy = true := by simp [idle]
    rw [offer, Engine.accept_eq, if_neg notBusy, dec]
  · have notBusy : ¬ e.busy = true := by simp [idle]
    rw [offer, if_neg notBusy, dec]
    rfl

/-- Settles O41: of everything an access can do, only an acceptance writes these elements, and it needs BUSY = 0. -/
theorem busyAccessKeepsThePendingCommand : Obligations.BusyAccessKeepsThePendingCommand := by
  intro a e k busy
  obtain same | ⟨c, raised⟩ | ⟨c, i, idle, -, -⟩ | cleared | ⟨v, stored⟩ | ⟨n, v, stored⟩ := busAccess_cases a e k
  · simp [same, busy]
  · simp [raised, busy]
  · simp [busy] at idle
  · simp [cleared, busy]
  · simp [stored, busy]
  · simp [stored, busy]

/-- Settles O9: every agent's step answers a next state. -/
theorem everyStepAnswersNext : Obligations.EveryStepAnswersNext := by
  intro s
  obtain ⟨t, answers, -⟩ := step_answers_engineMove s
  exact ⟨t, answers⟩

/-- The Engine's step with a command pending (40_commands.md R102). -/
theorem step_of_pending {s : State} {p : Pending} (who : s.nextAgent = .engine) (pend : s.engine.pending = some p) :
    step s = exec p.cmd s.advance := by
  calc step s = engineStep s.advance := step_of_engine who
    _ = .next (s.advance.onEngine (Engine.performed p.cmd)) := engineStep_of_pending pend
    _ = exec p.cmd s.advance := (exec_eq_performed p.cmd s.advance).symm

/-- Settles O6: the Engine's step starts where the schedule's head is used up. -/
theorem stepRunsPendingCommand : Obligations.StepRunsPendingCommand :=
  fun _ _ pend who => step_of_pending who pend

/-- Settles O15: NOP's performance is the retirement alone. -/
theorem nopOnlyRetires : Obligations.NopOnlyRetires := exec_nop

/-! ## A command word placed for the Engine -/

theorem decodeTableWord_toNat {w : Word} {i : Instr} (dec : decode w = .legal i) :
    decodeTableWord 32 w.toNat = some i := by
  simp [decodeTableWord, dec, w.isLt]

/-- Placing a legal word accepts its command and gives the Engine the next step. -/
theorem withFetchWord_of_legal {w : Word} {i : Instr} (dec : decode w = .legal i) (s : State) :
    s.withFetchWord 32 w.toNat = (s.onEngine (Engine.accept i)).scheduleEngine := by
  simp [State.withFetchWord, State.placeCommand, decodeTableWord_toNat dec]

@[simp] theorem State.scheduleEngine_engine (s : State) : s.scheduleEngine.engine = s.engine := by
  unfold State.scheduleEngine
  split <;> rfl

/-- The Engine's place in the schedule is what its step uses up. -/
@[simp] theorem State.scheduleEngine_advance (s : State) : s.scheduleEngine.advance = s := by
  obtain ⟨engine, hosts, schedule, draws⟩ := s
  cases schedule <;> rfl

theorem nextAgent_of_unscheduled {s : State} {p : Pending} (done : s.schedule = [])
    (pend : s.engine.pending = some p) : s.nextAgent = .engine := by
  simp [State.nextAgent, done, pend]

theorem State.scheduleEngine_nextAgent {s : State} {p : Pending} (pend : s.engine.pending = some p) :
    s.scheduleEngine.nextAgent = .engine := by
  cases due : s.schedule with
  | nil => simpa [State.scheduleEngine, due] using nextAgent_of_unscheduled due pend
  | cons a rest => exact nextAgent_of_scheduled (rest := a :: rest) (by simp [State.scheduleEngine, due])

theorem step_scheduleEngine {s : State} {p : Pending} (pend : s.engine.pending = some p) :
    step s.scheduleEngine = exec p.cmd s := by
  have placed : s.scheduleEngine.engine.pending = some p := by rw [State.scheduleEngine_engine, pend]
  rw [step_of_pending (State.scheduleEngine_nextAgent pend) placed, State.scheduleEngine_advance]

/-- Settles O7: the placed word is an accepted command, and the Engine's step performs it. -/
theorem stepRunsDecodedWord : Obligations.StepRunsDecodedWord := by
  intro s w i dec
  have accepted : (s.onEngine (Engine.accept i)).engine.pending = some (s.engine.latch i) :=
    Engine.accept_pending i s.engine
  rw [withFetchWord_of_legal dec, step_scheduleEngine accepted, State.onEngine, Engine.accept_eq, Engine.latch_cmd]

/-! ## A pending command waits for the Engine -/

theorem State.hostStep_schedule (k : Nat) (s : State) : (s.hostStep k).schedule = s.schedule := by
  obtain rests | ⟨h, op, rest, -, -, accesses⟩ := hostStep_cases k s
  · rw [rests]
  · rw [accesses]

/-- No Host's step touches a pending command (40_commands.md R101, R104). -/
theorem hostStep_keeps_pending {s : State} (busy : s.engine.busy = true) (k : Nat) :
    (s.hostStep k).engine.pending = s.engine.pending ∧ (s.hostStep k).engine.busy = true := by
  obtain rests | ⟨h, op, rest, -, -, accesses⟩ := hostStep_cases k s
  · rw [rests]
    exact ⟨rfl, busy⟩
  · rw [accesses]
    obtain ⟨pending, busy', -⟩ := busyAccessKeepsThePendingCommand op.toAccess s.engine s.draws busy
    exact ⟨pending, busy'⟩

/-- The first step of a run, then the rest. -/
theorem run_succ_of_step {M : Host.Core} {s t : M.State} (answers : M.step s = .next t) (k : Nat) :
    M.run (k + 1) s = M.run k t := by
  simp [Host.Core.run, answers]

/-- Settles O10, by induction on the schedule: a Host's step uses its head up and keeps the pending command; after the
schedule the Engine is next. -/
theorem pendingCommandReachesTheEngine : Obligations.PendingCommandReachesTheEngine := by
  intro s p pend busy
  induction due : s.schedule generalizing s with
  | nil => exact ⟨0, s, le_rfl, rfl, pend, .inl (nextAgent_of_unscheduled due pend)⟩
  | cons a rest ih =>
    have who := nextAgent_of_scheduled due
    cases a with
    | engine => exact ⟨0, s, Nat.zero_le _, rfl, pend, .inl who⟩
    | reset => exact ⟨0, s, Nat.zero_le _, rfl, pend, .inr who⟩
    | host j =>
      obtain ⟨pending, busy'⟩ := hostStep_keeps_pending (s := s.advance) busy j
      have left : (s.advance.hostStep j).schedule = rest := by simp [State.hostStep_schedule, due]
      obtain ⟨k, u, bound, run, reached⟩ := ih (s.advance.hostStep j) (pending.trans pend) busy' left
      exact ⟨k + 1, u, Nat.succ_le_succ bound, (run_succ_of_step (step_of_host who) k).trans run, reached⟩

end Sys2Proof.Machine

/-! ## INIT, UPDATE and the stream of bytes -/

namespace Sys2Proof.Machine

/-- Settles O16: INIT's performance is the fresh HashState and the retirement. -/
theorem initStartsAFreshHashState : Obligations.InitStartsAFreshHashState := exec_init

/-- Byte k of the data word is `data[31-8k : 24-8k]` (41_update.md R121). -/
theorem updateBytes_eq_map {n : BitVec 3} (few : n.toNat ≤ 4) (data : Word) :
    updateBytes n data = (List.range n.toNat).map fun k => data.extractLsb' (24 - 8 * k) 8 := by
  have whole : be32bytes data = (List.range 4).map fun k => data.extractLsb' (24 - 8 * k) 8 := rfl
  rw [updateBytes, whole, ← List.map_take, List.take_range, Nat.min_eq_left few]

/-- Fewer than two blocks' bytes hold at most the one block in front. -/
theorem blocksOf_one {m : List Byte} (full : 64 ≤ m.length) (short : m.length < 128) : blocksOf m = [m.take 64] := by
  have front : (m.take 64).length = 64 := by simp [full]
  have back : (m.drop 64).length < 64 := by rw [List.length_drop]; omega
  calc blocksOf m = blocksOf (m.take 64 ++ m.drop 64) := by rw [List.take_append_drop]
    _ = [m.take 64] := by rw [blocksOf_append front, blocksOf_short back]

/-- Bytes that leave room in the tail are appended to it (41_update.md R121). -/
theorem Engine.pushBytes_of_room {e : Engine} {bs : List Byte} (room : (e.tailBytes ++ bs).length < 64) :
    (e.pushBytes bs).h = e.h ∧ (e.pushBytes bs).total = e.total ∧
      (e.pushBytes bs).tailLen.toNat = (e.tailBytes ++ bs).length ∧
      (e.pushBytes bs).tailBytes = e.tailBytes ++ bs := by
  obtain ⟨h, total, len, tail⟩ := Engine.pushBytes_spec bs e
  rw [Nat.div_eq_of_lt room] at total len tail
  rw [blocksOf_short room] at h
  refine ⟨h, BitVec.eq_of_toNat_eq ?_, len, tail⟩
  rw [total, Nat.mul_zero, Nat.add_zero, Nat.mod_eq_of_lt e.total.isLt]

/-- Bytes that fill the tail once have its block folded into H and counted, and the rest is the tail (41_update.md
R122). -/
theorem Engine.pushBytes_of_full {e : Engine} {bs : List Byte} (full : 64 ≤ (e.tailBytes ++ bs).length)
    (short : (e.tailBytes ++ bs).length < 128) :
    (e.pushBytes bs).h = compress e.h ((e.tailBytes ++ bs).take 64) ∧
      (e.pushBytes bs).total = e.total + 64#64 ∧
      (e.pushBytes bs).tailLen.toNat = (e.tailBytes ++ bs).length - 64 ∧
      (e.pushBytes bs).tailBytes = (e.tailBytes ++ bs).drop 64 := by
  obtain ⟨h, total, len, tail⟩ := Engine.pushBytes_spec bs e
  have one : (e.tailBytes ++ bs).length / 64 = 1 := by omega
  rw [one] at total len tail
  rw [blocksOf_one full short] at h
  exact ⟨h, BitVec.eq_of_toNat_eq (by rw [total, BitVec.toNat_add]; rfl), len, tail⟩

theorem Engine.operandData_of_pending {e : Engine} {p : Pending} (pend : e.pending = some p) :
    e.operandData = p.data := by
  rw [Engine.operandData, pend]

/-- Settles O17: at most 4 bytes after at most 63 either leave room in the tail or fill it once. -/
theorem updateAppendsBytesAndAbsorbs : Obligations.UpdateAppendsBytesAndAbsorbs := by
  intro s p n few pend
  refine ⟨_, exec_eq_performed (.update n) s, ?_, Engine.performed_dataIn _ _, Engine.performed_hin _ _,
    Engine.performed_pending _ _, Engine.performed_busy _ _, by simp [Engine.performed_dvalid],
    Engine.performed_err _ _, Engine.performed_errcode _ _, Engine.performed_digest (by simp) _, rfl, rfl, rfl⟩
  have pushed : (s.onEngine (Engine.performed (.update n))).engine =
      (s.engine.pushBytes (updateBytes n p.data)).retire := by
    rw [State.onEngine_engine, Engine.performed, Engine.operandData_of_pending pend]
  have short : (s.engine.tailBytes ++ updateBytes n p.data).length < 128 := by
    have held := s.engine.tailLen.isLt
    rw [List.length_append, Engine.tailBytes_length, updateBytes_length]
    omega
  rw [pushed, ← updateBytes_eq_map few]
  dsimp only
  split
  case isTrue room => exact Engine.pushBytes_of_room room
  case isFalse full => exact Engine.pushBytes_of_full (Nat.le_of_not_lt full) short

/-- Two engines with the same HashState: H, TOTAL and the meaningful tail bytes, so TAIL_LEN too (10_state.md R20,
R25). -/
structure Engine.SameHashState (e f : Engine) : Prop where
  h : e.h = f.h
  total : e.total = f.total
  tailBytes : e.tailBytes = f.tailBytes

theorem Engine.SameHashState.tailLen {e f : Engine} (same : e.SameHashState f) : e.tailLen = f.tailLen :=
  BitVec.eq_of_toNat_eq (by rw [← Engine.tailBytes_length, ← Engine.tailBytes_length, same.tailBytes])

theorem Engine.SameHashState.trans {e f g : Engine} (ef : e.SameHashState f) (fg : f.SameHashState g) :
    e.SameHashState g :=
  ⟨ef.h.trans fg.h, ef.total.trans fg.total, ef.tailBytes.trans fg.tailBytes⟩

/-- What pushing bytes makes of the HashState depends on the HashState alone. -/
theorem Engine.SameHashState.pushBytes {e f : Engine} (same : e.SameHashState f) (bs : List Byte) :
    (e.pushBytes bs).SameHashState (f.pushBytes bs) := by
  obtain ⟨hE, totalE, -, tailE⟩ := Engine.pushBytes_spec bs e
  obtain ⟨hF, totalF, -, tailF⟩ := Engine.pushBytes_spec bs f
  rw [same.tailBytes] at hE totalE tailE
  rw [same.h] at hE
  rw [same.total] at totalE
  exact ⟨hE.trans hF.symm, BitVec.eq_of_toNat_eq (totalE.trans totalF.symm), tailE.trans tailF.symm⟩

theorem Engine.pushBytes_append (as bs : List Byte) (e : Engine) :
    e.pushBytes (as ++ bs) = (e.pushBytes as).pushBytes bs :=
  List.foldl_append

/-- The bytes a legal stream command stands for are those its UPDATE pushes; FINALIZE and NOP push none. -/
theorem StreamCommand.run_hashState {c : StreamCommand} (legal : c.legal = true) (s : State) :
    ∃ t, c.run s = .next t ∧ t.engine.SameHashState (s.engine.pushBytes c.bytes) := by
  cases c with
  | update n data =>
    have few : n.toNat ≤ 4 := by simpa [StreamCommand.legal, BitVec.le_def] using legal
    have delivered : (StreamCommand.update n data).bytes = updateBytes n data := (updateBytes_eq_map few data).symm
    have accepted : (Engine.accept (.update n) { s.engine with dataIn := data }).SameHashState s.engine :=
      ⟨rfl, rfl, rfl⟩
    obtain ⟨h, total, tail⟩ := accepted.pushBytes (updateBytes n data)
    rw [delivered]
    exact ⟨_, issue_eq _ _, h, total, tail⟩
  | finalize => exact ⟨_, issue_eq _ _, rfl, rfl, rfl⟩
  | nop => exact ⟨_, issue_eq _ _, rfl, rfl, rfl⟩

/-- A legal stream, however cut into commands, leaves the HashState of all its bytes pushed at once (41_update.md
R124). -/
theorem runStream_hashState {cs : List StreamCommand} (legal : legalStream cs = true) (s : State) :
    ∃ t, runStream cs s = .next t ∧ t.engine.SameHashState (s.engine.pushBytes (streamBytes cs)) := by
  induction cs generalizing s with
  | nil => exact ⟨s, rfl, rfl, rfl, rfl⟩
  | cons c cs ih =>
    simp only [legalStream, List.all_cons, Bool.and_eq_true] at legal
    obtain ⟨legalHead, legalRest⟩ := legal
    obtain ⟨t, run, first⟩ := StreamCommand.run_hashState legalHead s
    obtain ⟨u, runRest, rest⟩ := ih legalRest t
    refine ⟨u, by simpa [runStream, run, andThen] using runRest, ?_⟩
    rw [streamBytes, List.flatMap_cons, Engine.pushBytes_append]
    exact rest.trans (first.pushBytes _)

/-- Settles O22: the whole stream is one push, whose full blocks are folded into H. -/
theorem chunkingNeverChangesTheResult : Obligations.ChunkingNeverChangesTheResult := by
  intro s cs legal
  obtain ⟨t, run, same⟩ := runStream_hashState legal s
  refine ⟨t, run, ?_⟩
  rw [same.h, same.total, same.tailLen, same.tailBytes]
  exact Engine.pushBytes_spec (streamBytes cs) s.engine

end Sys2Proof.Machine

/-! ## FINALIZE and the padding -/

namespace Sys2Proof.Machine

/-- Settles O18: FINALIZE's performance is the stored digest and the retirement. -/
theorem finalizeStoresTheDigest : Obligations.FinalizeStoresTheDigest := exec_finalize

/-- TAIL_LEN advances by 1 modulo 64 with every byte, since the byte that would make it 64 makes it 0 (41_update.md
R121, R122). -/
theorem Engine.pushByte_tailLen (e : Engine) (b : Byte) : (e.pushByte b).tailLen = e.tailLen + 1#6 := by
  simp only [Engine.pushByte]
  split
  case isTrue full => exact BitVec.eq_of_toNat_eq (by simp [full])
  case isFalse => rfl

theorem Engine.pushByte_tail (e : Engine) (b : Byte) :
    (e.pushByte b).tail = e.tail.set e.tailLen.toNat b e.tailLen.isLt := by
  simp only [Engine.pushByte]
  split <;> rfl

/-- What pushing bytes leaves in all 64 places of TAIL depends on TAIL and TAIL_LEN alone. -/
theorem Engine.pushBytes_tail_congr {e f : Engine} (tail : e.tail = f.tail) (len : e.tailLen = f.tailLen)
    (bs : List Byte) : (e.pushBytes bs).tail = (f.pushBytes bs).tail := by
  induction bs generalizing e f with
  | nil => exact tail
  | cons b bs ih =>
    refine ih (e := e.pushByte b) (f := f.pushByte b) ?_ ?_
    · simp only [Engine.pushByte_tail, tail, len]
    · simp only [Engine.pushByte_tailLen, len]

/-- What UPDATE makes of the HashState and of TAIL depends on them and the data word alone. -/
theorem Engine.SameHashState.performed_update {e f : Engine} (same : e.SameHashState f) (tail : e.tail = f.tail)
    (data : e.operandData = f.operandData) (n : BitVec 3) :
    (e.performed (.update n)).SameHashState (f.performed (.update n)) ∧
      (e.performed (.update n)).tail = (f.performed (.update n)).tail := by
  obtain ⟨h, total, tailBytes⟩ := same.pushBytes (updateBytes n f.operandData)
  rw [Engine.performed, Engine.performed, data]
  exact ⟨⟨h, total, tailBytes⟩, Engine.pushBytes_tail_congr tail same.tailLen _⟩

/-- Settles O21: FINALIZE writes nothing that its own digest or an UPDATE depends on. -/
theorem finalizeIsTransparent : Obligations.FinalizeIsTransparent := by
  intro s n
  have finalized : (((s.engine.accept .finalize).performed .finalize).accept (.update n)).SameHashState
      (s.engine.accept (.update n)) := ⟨rfl, rfl, rfl⟩
  obtain ⟨updated, tail⟩ := finalized.performed_update rfl rfl n
  exact ⟨_, _, _, _, issue_eq _ _, issue_eq _ _, rfl, rfl, rfl, rfl, rfl, issue_eq _ _, issue_eq _ _,
    updated.h, tail, updated.tailLen, updated.total⟩

/-! ### The layout of the padding -/

theorem pad_length (t : List Byte) (total : BitVec 64) : (pad t total).length = t.length + 1 + zeroCount t + 8 := by
  simp only [pad, List.length_append, List.length_singleton, List.length_replicate, be64bytes_length]

/-- Big-endian bytes read most significant first give the number back (00_scope.md R10). -/
theorem be64bytes_foldl (v : BitVec 64) :
    (be64bytes v).foldl (fun acc b => acc * 256 + b.toNat) 0 = v.toNat := by
  have bound := v.isLt
  simp only [be64bytes, be32bytes, List.cons_append, List.nil_append, List.foldl_cons, List.foldl_nil,
    BitVec.extractLsb'_toNat, Nat.shiftRight_eq_div_pow]
  omega

theorem bitLength_toNat (t : List Byte) (total : BitVec 64) :
    (bitLength t total).toNat = (total.toNat + t.length) * 8 % 2 ^ 64 := by
  simp [bitLength, Nat.mod_mul_mod]

/-- Settles O26: the zero count is the remainder that makes the length 56 modulo 64. -/
theorem paddingLayout : Obligations.PaddingLayout := by
  intro t total _
  have zeros := zeroCount_eq t
  exact ⟨zeroCount t, be64bytes (bitLength t total), by omega, by omega, rfl, be64bytes_length _,
    (be64bytes_foldl _).trans (bitLength_toNat t total)⟩

/-- Exactly one block's bytes are their only block. -/
theorem blocksOf_eq_singleton {m : List Byte} (len : m.length = 64) : blocksOf m = [m] := by
  rw [blocksOf_one (by omega) (by omega), List.take_of_length_le (by omega)]

/-- Exactly two blocks' bytes are their two halves. -/
theorem blocksOf_eq_pair {m : List Byte} (len : m.length = 128) : blocksOf m = [m.take 64, m.drop 64] := by
  have front : (m.take 64).length = 64 := by simp [len]
  have back : (m.drop 64).length = 64 := by simp [len]
  calc blocksOf m = blocksOf (m.take 64 ++ m.drop 64) := by rw [List.take_append_drop]
    _ = [m.take 64, m.drop 64] := by rw [blocksOf_append front, blocksOf_eq_singleton back]

/-- Settles O27: the zero count is 55 - len in the first range and 119 - len in the second. -/
theorem oneOrTwoPaddedBlocks : Obligations.OneOrTwoPaddedBlocks := by
  intro x t total
  have zeros := zeroCount_eq t
  refine ⟨fun short => ?_, fun low high => ?_⟩
  · have count : zeroCount t = 55 - t.length := by omega
    have len : (pad t total).length = 64 := by rw [pad_length]; omega
    exact ⟨len, by rw [pad, count], by rw [digestOf, blocksOf_eq_singleton len]; rfl⟩
  · have count : zeroCount t = 119 - t.length := by omega
    have len : (pad t total).length = 128 := by rw [pad_length]; omega
    exact ⟨len, by rw [pad, count], by rw [digestOf, blocksOf_eq_pair len]; rfl⟩

/-! ### The digest of a stream -/

/-- Whole blocks in front of a message only add to the byte count its padding encodes. -/
theorem pad_append_of_dvd {a : List Byte} (whole : a.length % 64 = 0) (m : List Byte) (total : BitVec 64) :
    pad (a ++ m) total = a ++ pad m (total + BitVec.ofNat 64 a.length) := by
  have zeros : zeroCount (a ++ m) = zeroCount m := by
    rw [zeroCount_eq, zeroCount_eq, List.length_append]
    omega
  have bits : bitLength (a ++ m) total = bitLength m (total + BitVec.ofNat 64 a.length) := by
    rw [bitLength, bitLength, List.length_append, BitVec.ofNat_add, BitVec.add_assoc]
  simp only [pad, zeros, bits, List.append_assoc]

/-- Compressing whole blocks first and counting them leaves the digest of the message (41_update.md R124). -/
theorem digestOf_append_of_dvd {a : List Byte} (whole : a.length % 64 = 0) (m : List Byte) (x : Words5)
    (total : BitVec 64) :
    digestOf x (a ++ m) total = digestOf ((blocksOf a).foldl compress x) m (total + BitVec.ofNat 64 a.length) := by
  rw [digestOf, pad_append_of_dvd whole, blocksOf_append_of_dvd _ whole, List.foldl_append, digestOf]

/-- The blocks of a byte sequence are those of its longest part that is a whole number of blocks. -/
theorem blocksOf_take_blocks (u : List Byte) : blocksOf (u.take (64 * (u.length / 64))) = blocksOf u := by
  have whole : (u.take (64 * (u.length / 64))).length % 64 = 0 := by rw [List.length_take]; omega
  have rest : (u.drop (64 * (u.length / 64))).length < 64 := by rw [List.length_drop]; omega
  have split := blocksOf_append_of_dvd (u.drop (64 * (u.length / 64))) whole
  rw [List.take_append_drop, blocksOf_short rest, List.append_nil] at split
  exact split.symm

/-- The digest after pushing bytes is that of the tail and the bytes padded once, from the registers before
(42_finalize.md R140, R144). -/
theorem Engine.currentDigest_pushBytes (bs : List Byte) (e : Engine) :
    (e.pushBytes bs).currentDigest = digestOf e.h (e.tailBytes ++ bs) e.total := by
  obtain ⟨h, total, -, tail⟩ := Engine.pushBytes_spec bs e
  generalize e.tailBytes ++ bs = u at h total tail ⊢
  have len : (u.take (64 * (u.length / 64))).length = 64 * (u.length / 64) := by rw [List.length_take]; omega
  have count : (e.pushBytes bs).total = e.total + BitVec.ofNat 64 (64 * (u.length / 64)) :=
    BitVec.eq_of_toNat_eq (by rw [total]; simp)
  calc (e.pushBytes bs).currentDigest
      = digestOf ((blocksOf u).foldl compress e.h) (u.drop (64 * (u.length / 64)))
          (e.total + BitVec.ofNat 64 (64 * (u.length / 64))) := by rw [Engine.currentDigest, h, tail, count]
    _ = digestOf e.h (u.take (64 * (u.length / 64)) ++ u.drop (64 * (u.length / 64))) e.total := by
        rw [digestOf_append_of_dvd (by omega), blocksOf_take_blocks, len]
    _ = digestOf e.h u e.total := by rw [List.take_append_drop]

theorem Engine.SameHashState.currentDigest {e f : Engine} (same : e.SameHashState f) :
    e.currentDigest = f.currentDigest := by
  rw [Engine.currentDigest, Engine.currentDigest, same.h, same.tailBytes, same.total]

/-- A legal stream and a FINALIZE leave the digest of the tail and the stream's bytes, padded once. -/
theorem runStream_finalize_digest {cs : List StreamCommand} (legal : legalStream cs = true) (s : State) :
    ∃ t, andThen (runStream cs s) (issue .finalize) = .next t ∧ t.engine.dvalid = true ∧
      t.engine.digest = digestOf s.engine.h (s.engine.tailBytes ++ streamBytes cs) s.engine.total := by
  obtain ⟨t, run, same⟩ := runStream_hashState legal s
  refine ⟨_, by rw [run]; exact issue_eq .finalize t, rfl, ?_⟩
  calc t.engine.currentDigest = (s.engine.pushBytes (streamBytes cs)).currentDigest := same.currentDigest
    _ = digestOf s.engine.h (s.engine.tailBytes ++ streamBytes cs) s.engine.total :=
        Engine.currentDigest_pushBytes _ _

/-- Settles O23: INIT leaves the IV, an empty tail and the count 0. -/
theorem digestIsThatOfTheWholeMessage : Obligations.DigestIsThatOfTheWholeMessage := by
  intro s cs legal
  obtain ⟨t, run, valid, digest⟩ :=
    runStream_finalize_digest legal (s.onEngine fun e => (e.accept .init).performed .init)
  exact ⟨t, by rw [hashStream, issue_eq]; exact run, valid, digest⟩

end Sys2Proof.Machine

/-! ## SETREG and the length extension -/

namespace Sys2Proof.Machine

theorem Engine.operandHin_of_pending {e : Engine} {p : Pending} (pend : e.pending = some p) :
    e.operandHin = p.hin := by
  rw [Engine.operandHin, pend]

/-- Settles O19: the values SETREG loads are those of the pending record. -/
theorem setregLoadsTheLatchedValues : Obligations.SetregLoadsTheLatchedValues := by
  intro s p pend
  rw [exec_setreg, State.onEngine, Engine.operandHin_of_pending pend]
  rfl

theorem Engine.tailBytes_eq_nil {e : Engine} (empty : e.tailLen = 0#6) : e.tailBytes = [] := by
  simp [Engine.tailBytes, empty]

/-- The SETREG sequence leaves the digest of the tail and the stream's bytes, padded once with the count before, from
the five words injected (43_setreg.md R160, R161). -/
theorem extendStream_digest {cs : List StreamCommand} (legal : legalStream cs = true) (d : Words5) (s : State) :
    ∃ t, extendStream d cs s = .next t ∧
      t.engine.digest = digestOf d (s.engine.tailBytes ++ streamBytes cs) s.engine.total := by
  obtain ⟨t, run, -, digest⟩ := runStream_finalize_digest legal
    ((s.onEngine fun e => { e with hin := d }).onEngine fun e => (e.accept .setreg).performed .setreg)
  exact ⟨t, by rw [extendStream, issue_eq]; exact run, digest⟩

/-- A message followed by its glue padding is the message padded (43_setreg.md R162). -/
theorem append_glue (m : List Byte) (total : BitVec 64) : m ++ (pad m total).drop m.length = pad m total := by
  simp only [pad, List.append_assoc, List.drop_left]

/-- The digest of a padded message and more bytes is that of the bytes alone, from the message's digest and with the
padded message counted. -/
theorem digestOf_pad_append (x : Words5) (m rest : List Byte) (total : BitVec 64) :
    digestOf x (pad m total ++ rest) total =
      digestOf (digestOf x m total) rest (total + BitVec.ofNat 64 (pad m total).length) :=
  digestOf_append_of_dvd (pad_length_mod m total) rest x total

/-- Settles O25: the padded P is whole blocks, whose compression from the IV is P's digest. -/
theorem lengthExtension : Obligations.LengthExtension := by
  intro s₁ s₂ s₃ csP csS csAll legalP legalS legalAll bytes count empty
  obtain ⟨t₁, runP, -, digestP⟩ := digestIsThatOfTheWholeMessage s₁ csP legalP
  obtain ⟨t₂, runS, digestS⟩ := extendStream_digest legalS t₁.engine.digest s₂
  obtain ⟨t₃, runAll, -, digestAll⟩ := digestIsThatOfTheWholeMessage s₃ csAll legalAll
  refine ⟨t₁, t₂, t₃, runP, runS, runAll, ?_⟩
  generalize streamBytes csP = P at bytes count digestP
  generalize streamBytes csS = S at bytes digestS
  rw [append_glue] at bytes
  calc t₂.engine.digest
      = digestOf t₁.engine.digest S (BitVec.ofNat 64 (pad P 0#64).length) := by
        rw [digestS, Engine.tailBytes_eq_nil empty, List.nil_append, count]
    _ = digestOf (digestOf iv P 0#64) S (0#64 + BitVec.ofNat 64 (pad P 0#64).length) := by
        rw [digestP, BitVec.zero_add, ← digestOf]
    _ = digestOf iv (pad P 0#64 ++ S) 0#64 := (digestOf_pad_append iv P S 0#64).symm
    _ = t₃.engine.digest := by rw [digestAll, bytes, digestOf]

end Sys2Proof.Machine

/-! ## The compression function -/

namespace Sys2Proof.Machine

/-! ### Rotation -/

/-- Below the word's width `rotl` is the library's rotation (00_scope.md R9). -/
theorem rotl_eq_rotateLeft (x : Word) {n : Nat} (small : n < 32) : rotl x n = x.rotateLeft n := by
  rw [rotl, BitVec.rotateLeft_def, Nat.mod_eq_of_lt small]

/-- Settles O32: bit `j` goes up by `n` where there is room, and around to `j + n - 32` where there is none. -/
theorem rotlMovesBits : Obligations.RotlMovesBits := by
  intro x n j _ small bit
  rw [rotl_eq_rotateLeft x small, BitVec.getLsbD_rotateLeft, Nat.mod_eq_of_lt small]
  by_cases room : j + n < 32
  · rw [Nat.mod_eq_of_lt room]
    simp [room]
  · have around : (j + n) % 32 = j + n - 32 := by omega
    have low : j + n - 32 < n := by omega
    have source : 32 - n + (j + n - 32) = j := by omega
    simp [around, low, source]

/-! ### The message schedule -/

@[simp] theorem wordsOf_length : ∀ b : List Byte, (wordsOf b).length = b.length / 4
  | [] | [_] | [_, _] | [_, _, _] => by simp [wordsOf]
  | b0 :: b1 :: b2 :: b3 :: rest => by
    rw [wordsOf, List.length_cons, wordsOf_length rest]
    simp only [List.length_cons]
    omega

/-- Word `t` of a byte sequence is its bytes 4t to 4t + 3 (44_compression.md R170). -/
theorem wordsOf_getD {b : List Byte} {t : Nat} (inside : 4 * t + 3 < b.length) :
    (wordsOf b).getD t 0 =
      be32 (b.getD (4 * t) 0) (b.getD (4 * t + 1) 0) (b.getD (4 * t + 2) 0) (b.getD (4 * t + 3) 0) := by
  induction t generalizing b with
  | zero =>
    match b, inside with
    | b0 :: b1 :: b2 :: b3 :: rest, _ => rfl
  | succ t ih =>
    match b, inside with
    | b0 :: b1 :: b2 :: b3 :: rest, inside =>
      exact ih (b := rest) (by simp only [List.length_cons] at inside; omega)

/-- Expansion puts new words in front and keeps those it started from. -/
theorem expandSchedule_drop (n : Nat) (ws : List Word) : (expandSchedule n ws).drop n = ws := by
  induction n generalizing ws with
  | zero => rfl
  | succ n ih => rw [expandSchedule, ← List.drop_drop, ih, List.drop_one, List.tail_cons]

/-- Each new word comes from the words that stand behind it. -/
theorem expandSchedule_getD {n k : Nat} (new : k < n) (ws : List Word) :
    (expandSchedule n ws).getD k 0 = nextScheduleWord ((expandSchedule n ws).drop (k + 1)) := by
  induction n generalizing ws with
  | zero => omega
  | succ n ih =>
    rw [expandSchedule]
    obtain earlier | rfl : k < n ∨ k = n := by omega
    · exact ih earlier _
    · have oldest := expandSchedule_drop k (nextScheduleWord ws :: ws)
      have word : (expandSchedule k (nextScheduleWord ws :: ws)).getD k 0 = nextScheduleWord ws := by
        simpa using congrArg (List.getD · 0 0) oldest
      rw [word, ← List.drop_drop, oldest, List.drop_one, List.tail_cons]

theorem nextScheduleWord_drop (ws : List Word) (k : Nat) :
    nextScheduleWord (ws.drop k) =
      (ws.getD (k + 2) 0 ^^^ ws.getD (k + 7) 0 ^^^ ws.getD (k + 13) 0 ^^^ ws.getD (k + 15) 0).rotateLeft 1 := by
  simp [nextScheduleWord, rotl_eq_rotateLeft]

/-- The schedule begins with the block's own words. -/
theorem messageSchedule_eq_append (b : List Byte) :
    messageSchedule b = wordsOf b ++ ((expandSchedule 64 (wordsOf b).reverse).take 64).reverse := by
  rw [messageSchedule]
  conv_lhs => rw [← List.take_append_drop 64 (expandSchedule 64 _), expandSchedule_drop]
  rw [List.reverse_append, List.reverse_reverse]

section
variable {b : List Byte} (len : b.length = 64)
include len

theorem messageSchedule_length : (messageSchedule b).length = 80 := by
  simp [messageSchedule, len]

/-- The schedule read from the expansion, which holds it newest first. -/
theorem messageSchedule_getD {t : Nat} (round : t < 80) :
    (messageSchedule b).getD t 0 = (expandSchedule 64 (wordsOf b).reverse).getD (79 - t) 0 := by
  rw [messageSchedule, List.getD_reverse _ (by simp [len]; exact round)]
  simp [len]

/-- A word of the block (44_compression.md R170). -/
theorem messageSchedule_getD_of_lt {t : Nat} (early : t < 16) :
    (messageSchedule b).getD t 0 =
      be32 (b.getD (4 * t) 0) (b.getD (4 * t + 1) 0) (b.getD (4 * t + 2) 0) (b.getD (4 * t + 3) 0) := by
  rw [messageSchedule_eq_append, List.getD_append _ _ _ _ (by simp [len]; exact early), wordsOf_getD (by omega)]

/-- An expanded word (44_compression.md R171): `w[t-j]` stands `j` places behind `w[t]` in the expansion. -/
theorem messageSchedule_getD_of_ge {t : Nat} (late : 16 ≤ t) (round : t < 80) :
    (messageSchedule b).getD t 0 =
      ((messageSchedule b).getD (t - 3) 0 ^^^ (messageSchedule b).getD (t - 8) 0 ^^^
        (messageSchedule b).getD (t - 14) 0 ^^^ (messageSchedule b).getD (t - 16) 0).rotateLeft 1 := by
  have back (j : Nat) (tap : j ≤ 16) :
      (messageSchedule b).getD (t - j) 0 = (expandSchedule 64 (wordsOf b).reverse).getD (79 - t + j) 0 := by
    rw [messageSchedule_getD len (by omega), show 79 - (t - j) = 79 - t + j by omega]
  rw [messageSchedule_getD len round, expandSchedule_getD (by omega), nextScheduleWord_drop,
    back 3 (by decide), back 8 (by decide), back 14 (by decide), back 16 (by decide)]

end

/-- Settles O28: the first 16 words are the block's, and each later one comes from the words behind it. -/
theorem messageScheduleWords : Obligations.MessageScheduleWords := fun _ len =>
  ⟨messageSchedule_length len, fun _ early => messageSchedule_getD_of_lt len early,
    fun _ late round => messageSchedule_getD_of_ge len late round⟩

/-! ### The rounds -/

/-- The rounds are a fold over their numbers, round `i + k` taking word `k` (44_compression.md R174). -/
theorem runRounds_eq_foldl (i : Nat) (ws : List Word) (v : Vars) :
    runRounds i ws v = (List.range ws.length).foldl (fun v k => roundStep (i + k) (ws.getD k 0) v) v := by
  induction ws generalizing i v with
  | nil => rfl
  | cons w ws ih =>
    simp [runRounds, ih, List.range_succ_eq_map, List.foldl_map, Nat.add_assoc, Nat.add_comm 1]

/-- Settles O29: the rounds run over the schedule's 80 words from round 0. -/
theorem compressIsEightyRounds : Obligations.CompressIsEightyRounds := by
  intro x b len
  rw [compress, runRounds_eq_foldl, messageSchedule_length len]
  simp only [Nat.zero_add]
  rfl

/-- Settles O30: reduced sums of reduced sums are the one exact sum reduced. -/
theorem roundIsTheFiveTermSum : Obligations.RoundIsTheFiveTermSum := by
  intro i w v _
  refine ⟨?_, rfl, rotl_eq_rotateLeft v.b (by decide), rfl, rfl⟩
  rw [← rotl_eq_rotateLeft v.a (by decide)]
  simp only [roundStep, BitVec.toNat_add, Nat.mod_add_mod]

/-! ### The round functions -/

section
variable (b c d : Word)

/-- The choice of rounds 0..19, bit by bit. -/
theorem roundChoice_getLsbD (j : Nat) :
    (d ^^^ (b &&& (c ^^^ d))).getLsbD j = if b.getLsbD j = true then c.getLsbD j else d.getLsbD j := by
  rw [BitVec.getLsbD_xor, BitVec.getLsbD_and, BitVec.getLsbD_xor]
  cases b.getLsbD j
  · simp
  · simp [Bool.xor_comm (c.getLsbD j)]

/-- The choice with a complement (44_compression.md R177). -/
theorem roundChoice_eq_or : d ^^^ (b &&& (c ^^^ d)) = (b &&& c) ||| (~~~b &&& d) := by
  refine BitVec.eq_of_getLsbD_eq fun j inside => ?_
  rw [roundChoice_getLsbD, BitVec.getLsbD_or, BitVec.getLsbD_and, BitVec.getLsbD_and, BitVec.getLsbD_not]
  cases b.getLsbD j
  · simp [inside]
  · simp

/-- The majority of rounds 40..59 with exclusive or (44_compression.md R177): no bit is set in exactly two terms. -/
theorem roundMajority_eq_xor :
    (b &&& c) ||| (b &&& d) ||| (c &&& d) = (b &&& c) ^^^ (b &&& d) ^^^ (c &&& d) := by
  refine BitVec.eq_of_getLsbD_eq fun j _ => ?_
  simp only [BitVec.getLsbD_or, BitVec.getLsbD_xor, BitVec.getLsbD_and]
  generalize b.getLsbD j = p, c.getLsbD j = q, d.getLsbD j = r
  revert p q r
  decide

/-- The majority, bit by bit: at least two of the three bits are set. -/
theorem roundMajority_getLsbD (j : Nat) :
    ((b &&& c) ||| (b &&& d) ||| (c &&& d)).getLsbD j = true ↔
      2 ≤ (b.getLsbD j).toNat + (c.getLsbD j).toNat + (d.getLsbD j).toNat := by
  simp only [BitVec.getLsbD_or, BitVec.getLsbD_and]
  generalize b.getLsbD j = p, c.getLsbD j = q, d.getLsbD j = r
  revert p q r
  decide

/-! The four rows of the table `round_fk` (44_compression.md R173). -/

variable {i : Nat}

theorem roundFK_of_le_19 (high : i ≤ 19) : roundFK i b c d = (d ^^^ (b &&& (c ^^^ d)), 0x5A827999#32) :=
  if_pos high

theorem roundFK_of_20_to_39 (low : 20 ≤ i) (high : i ≤ 39) : roundFK i b c d = (b ^^^ c ^^^ d, 0x6ED9EBA1#32) := by
  rw [roundFK, if_neg (by omega), if_pos high]

theorem roundFK_of_40_to_59 (low : 40 ≤ i) (high : i ≤ 59) :
    roundFK i b c d = ((b &&& c) ||| (b &&& d) ||| (c &&& d), 0x8F1BBCDC#32) := by
  rw [roundFK, if_neg (by omega), if_neg (by omega), if_pos high]

theorem roundFK_of_ge_60 (low : 60 ≤ i) : roundFK i b c d = (b ^^^ c ^^^ d, 0xCA62C1D6#32) := by
  rw [roundFK, if_neg (by omega), if_neg (by omega), if_neg (by omega)]

end

/-- Settles O31: the table's rows, and the two functions bit by bit. -/
theorem roundFunctionForms : Obligations.RoundFunctionForms := fun _ b c d =>
  ⟨roundFK_of_le_19 b c d, roundFK_of_20_to_39 b c d, roundFK_of_40_to_59 b c d,
    fun low _ => roundFK_of_ge_60 b c d low, roundChoice_eq_or b c d, roundMajority_eq_xor b c d,
    fun j _ => ⟨roundChoice_getLsbD b c d j, roundMajority_getLsbD b c d j⟩⟩

end Sys2Proof.Machine

/-! ## Bus accesses -/

namespace Sys2Proof.Machine

/-- Settles O33: a refusal says which of the checks it is of, and what passes meets them all. -/
theorem accessChecksInOrder : Obligations.AccessChecksInOrder := by
  intro off size isWrite word
  change if word ∈ unmappedWords then _
    else if isWrite = true ∧ word ∈ hinWords ∧ ¬ (size = .word ∧ off.toNat % 4 = 0) then _ else _
  cases checked : checkAccess off size isWrite with
  | pass r =>
    obtain ⟨rfl, rfl⟩ := checkAccess_pass checked
    obtain ⟨aligned, mapped⟩ := r.offset_mapped
    have ownWord : word = r.offset.toNat := by simp only [word, aligned, Nat.sub_zero]
    have full : Size.word = .word ∧ r.offset.toNat % 4 = 0 := ⟨rfl, aligned⟩
    rw [← ownWord] at mapped
    rw [if_neg mapped, if_neg fun ⟨_, _, notFull⟩ => notFull full, if_neg (not_not_intro full)]
    exact ⟨r, rfl, rfl⟩
  | refuse code =>
    obtain ⟨unmapped, rfl⟩ | ⟨mapped, notFull, rfl⟩ := checkAccess_refuse checked
    · rw [if_pos unmapped]
    · rw [if_neg mapped]
      by_cases hinWrite : isWrite = true ∧ word ∈ hinWords
      · obtain ⟨write, inHin⟩ := hinWrite
        rw [if_pos ⟨write, inHin, notFull⟩, if_pos ⟨write, inHin⟩]
      · rw [if_neg fun ⟨write, inHin, _⟩ => hinWrite ⟨write, inHin⟩, if_pos notFull, if_neg hinWrite]

/-- The offsets of the registers no write stores to (45_bus_access.md R196). -/
theorem readOnly_offsets :
    (allRegs.filter Reg.isReadOnly).map Reg.offset =
      [0x00#7, 0x24#7, 0x28#7, 0x30#7, 0x34#7, 0x38#7, 0x3C#7, 0x40#7, 0x50#7, 0x54#7, 0x58#7, 0x5C#7, 0x60#7,
        0x64#7, 0x68#7, 0x6C#7, 0x70#7, 0x74#7] := by decide

/-- A write of a read-only register is an error and stores nothing (45_bus_access.md R196). -/
theorem writeReg_of_isReadOnly {r : Reg} (readOnly : r.isReadOnly = true) (v : Word) (e : Engine) :
    e.writeReg r v = e.raiseError .badAccess := by
  cases r with
  | cmd => cases readOnly
  | status => cases readOnly
  | dataIn => cases readOnly
  | hin n => cases readOnly
  | _ => rfl

/-- Settles O39: each write is of the register at its offset. -/
theorem checkedWrites : Obligations.CheckedWrites := by
  intro e v k
  refine ⟨busAccess_write_reg .status v e k, busAccess_write_reg .dataIn v e k, busAccess_write_reg (.hin 0) v e k,
    busAccess_write_reg (.hin 1) v e k, busAccess_write_reg (.hin 2) v e k, busAccess_write_reg (.hin 3) v e k,
    busAccess_write_reg (.hin 4) v e k, fun off listed => ?_⟩
  rw [← readOnly_offsets] at listed
  obtain ⟨r, inMap, rfl⟩ := List.mem_map.mp listed
  obtain ⟨-, readOnly⟩ := List.mem_filter.mp inMap
  rw [busAccess_write_reg, writeReg_of_isReadOnly readOnly]
  rfl

/-- A refused read records the error and returns 0 (45_bus_access.md R191). -/
theorem busAccess_read_of_refuse {off : BitVec 7} {size : Size} {code : ErrorCode}
    (h : checkAccess off size false = .refuse code) (e : Engine) (k : DrawKey) :
    busAccess (.read off size) e k = ⟨e.raiseError code, some 0#32, k⟩ := by
  rw [busAccess, busRead, h]

/-- A refused write records the error (45_bus_access.md R191). -/
theorem busAccess_write_of_refuse {off : BitVec 7} {size : Size} {code : ErrorCode}
    (h : checkAccess off size true = .refuse code) (v : Word) (e : Engine) (k : DrawKey) :
    busAccess (.write off size v) e k = ⟨e.raiseError code, none, k⟩ := by
  rw [busAccess, busWrite, h]

/-- Settles O34: `raiseError` with the error's number is all a refused access does. -/
theorem refusedAccessOnlyRecordsTheError : Obligations.RefusedAccessOnlyRecordsTheError := by
  intro off size v e k code number listed
  obtain rfl := (mem_errorNumbers code number).mp listed
  exact ⟨fun refused => busAccess_read_of_refuse refused e k,
    fun refused => busAccess_write_of_refuse refused v e k⟩

/-- TOTAL_LO and TOTAL_HI as numbers (10_state.md R38). -/
theorem regValue_totalLo (e : Engine) : e.regValue .totalLo = BitVec.ofNat 32 (e.total.toNat % 2 ^ 32) := by
  apply BitVec.eq_of_toNat_eq
  rw [Engine.regValue, BitVec.extractLsb'_toNat, Nat.shiftRight_zero, BitVec.toNat_ofNat, Nat.mod_mod]

theorem regValue_totalHi (e : Engine) : e.regValue .totalHi = BitVec.ofNat 32 (e.total.toNat / 2 ^ 32) := by
  rw [Engine.regValue, BitVec.extractLsb', Nat.shiftRight_eq_div_pow]

/-- Settles O35: each read is of the register at its offset. -/
theorem idleReadsAreExact : Obligations.IdleReadsAreExact := by
  intro e k idle
  have read := fun r : Reg => busAccess_read_idle r idle k
  have totalLo := read .totalLo
  have totalHi := read .totalHi
  rw [regValue_totalLo] at totalLo
  rw [regValue_totalHi] at totalHi
  exact ⟨read .id, read .cmd, read .dataIn, read (.hin 0), read (.hin 1), read (.hin 2), read (.hin 3), read (.hin 4),
    totalLo, totalHi, read (.digest 0), read (.digest 1), read (.digest 2), read (.digest 3), read (.digest 4)⟩

end Sys2Proof.Machine

/-! ## The error record, the idle machine and the instances of a platform -/

namespace Sys2Proof.Machine

/-- A recorded error stays but for a STATUS write with bit 2 set (60_exceptions.md R211, R219). -/
theorem AccessEffect.errorRecord_kept {a : Access} {e f : Engine} (effect : AccessEffect a e f) (before : e.err = true)
    (noClear : ∀ v, a = .write 0x08#7 .word v → v.getLsbD 2 = false) : f.err = true ∧ f.errcode = e.errcode := by
  cases effect with
  | refused code => exact ⟨Engine.raiseError_err code e, by simp [Engine.raiseError_errcode, before]⟩
  | accepted => exact ⟨before, rfl⟩
  | cleared v isStatus bit => exact absurd ((noClear v isStatus).symm.trans bit) Bool.false_ne_true
  | staged => exact ⟨before, rfl⟩

/-- Settles O42: none of what an access can do to the engine overwrites a recorded error. -/
theorem firstErrorIsKept : Obligations.FirstErrorIsKept :=
  fun a e k before noClear => (busAccess_effect a e k).errorRecord_kept before noClear

/-- With no error recorded, `raiseError` writes the record and nothing else (60_exceptions.md R211). -/
theorem Engine.raiseError_of_err_clear {e : Engine} (before : e.err = false) (code : ErrorCode) :
    e.raiseError code = { e with err := true, errcode := errorCodeValue code } := by
  simp [Engine.raiseError, before]

/-- Settles O53: a failing check leaves what recording its error leaves, and ERR is set by no access that has none. -/
theorem eachAccessReportsItsFirstFailingCheck : Obligations.EachAccessReportsItsFirstFailingCheck := by
  intro a e k before
  have effect := busAccess_effect a e k
  refine ⟨fun code number error listed => ?_, fun fine => ?_⟩
  · obtain rfl := (mem_errorNumbers code number).mp listed
    rw [effect.of_error error, Engine.raiseError_of_err_clear before]
  · by_contra raised
    obtain ⟨code, error, -⟩ := effect.err_set before (Bool.eq_true_of_not_eq_false raised)
    simp [fine] at error

/-- With no command pending and no Host with an access left, the turn falls to the Engine (log 4). -/
theorem nextAgent_of_nothing_to_do {s : State} (idle : s.engine.pending = none) (done : s.schedule = [])
    (finished : ∀ h ∈ s.hosts, h.program = []) : s.nextAgent = .engine := by
  have noneReady : s.hosts.findIdx? HostAgent.ready = none := by
    rw [List.findIdx?_eq_none_iff]
    exact fun h mem => by simp [HostAgent.ready, finished h mem]
  simp [State.nextAgent, done, idle, noneReady]

/-- An empty schedule has no head to use up. -/
theorem advance_of_unscheduled {s : State} (done : s.schedule = []) : s.advance = s := by
  rw [State.advance, done, List.tail_nil, ← done]

/-- Settles O8: the turn is the idle Engine's, and the schedule has no head to use up. -/
theorem idleMachineHoldsItsState : Obligations.IdleMachineHoldsItsState := by
  intro s idle done finished
  calc step s = engineStep s.advance := step_of_engine (nextAgent_of_nothing_to_do idle done finished)
    _ = engineStep s := by rw [advance_of_unscheduled done]
    _ = .next s := engineStep_of_idle idle

/-- A number no instance has is no step (60_exceptions.md R224). -/
theorem platformStep_of_no_slot {p : Platform} {k : Nat} (absent : p[k]? = none) : platformStep k p = .next p := by
  simp [platformStep, absent]

/-- A step of instance k writes what its machine's step answers to place k. -/
theorem platformStep_of_slot {p : Platform} {k : Nat} {slot : Slot} {t : State} (slotAt : p[k]? = some slot)
    (answers : step slot.machine = .next t) : platformStep k p = .next (p.set k ⟨slot.base, t⟩) := by
  simp [platformStep, slotAt, answers]

/-- Settles O50: a step of instance k writes at most place k of the platform. -/
theorem instancesShareNoState : Obligations.InstancesShareNoState := by
  intro p k
  cases slotAt : p[k]? with
  | none => exact ⟨p, platformStep_of_no_slot slotAt, rfl, fun _ _ => rfl, fun _ found => by simp at found⟩
  | some slot =>
    obtain ⟨t, answers⟩ := everyStepAnswersNext slot.machine
    refine ⟨_, platformStep_of_slot slotAt answers, List.length_set,
      fun j other => List.getElem?_set_ne other.symm, fun slot' same => ?_⟩
    obtain rfl : slot = slot' := Option.some.inj same
    exact ⟨t, answers, getElem?_set_of_getElem? slotAt _⟩

end Sys2Proof.Machine

/-! ## Reset steps and reads while busy -/

namespace Sys2Proof.Machine

/-- Settles O12: the step answers the state whose engine is `Engine.reset`, the Hosts and the draw key untouched. -/
theorem resetStepClearsTheEngine : Obligations.ResetStepClearsTheEngine :=
  fun s who => ⟨s.advance.resetEngine, step_of_reset who, rfl, rfl, rfl, rfl, rfl, rfl, rfl, rfl, rfl, rfl, rfl,
    State.resetEngine_hosts s.advance, State.resetEngine_draws s.advance⟩

/-- ID, CMD, DATA_IN and HIN0..4 read exactly, BUSY = 1 or not (70_reset_and_hazards.md R247). -/
theorem busAccess_read_exact {r : Reg} (always : r.unspecifiedWhileBusy = false) (e : Engine) (k : DrawKey) :
    busAccess (.read r.offset .word) e k = ⟨e, some (e.regValue r), k⟩ := by
  simp [busAccess_read_reg, Engine.readReg, Engine.drawsOnRead, always]

/-- With BUSY = 1 the other registers return the draw of the key, which is used up (70_reset_and_hazards.md R247). -/
theorem busAccess_read_drawn {r : Reg} (drawn : r.unspecifiedWhileBusy = true) {e : Engine} (busy : e.busy = true)
    (k : DrawKey) : busAccess (.read r.offset .word) e k = ⟨e, some (e.drawnValue r k), k.next⟩ := by
  simp [busAccess_read_reg, Engine.readReg, Engine.drawsOnRead, drawn, busy]

/-- The draw of a register other than STATUS is the whole word. -/
theorem drawnValue_of_ne_status {r : Reg} (other : r ≠ .status) (e : Engine) (k : DrawKey) :
    e.drawnValue r k = Config.freeWord k := by
  cases r with
  | status => exact absurd rfl other
  | _ => rfl

/-- The offsets of the registers whose whole word is unspecified while BUSY = 1 (70_reset_and_hazards.md R247). -/
theorem drawnWord_offsets :
    (allRegs.filter fun r => r.unspecifiedWhileBusy && r != .status).map Reg.offset =
      [0x24#7, 0x28#7, 0x30#7, 0x34#7, 0x38#7, 0x3C#7, 0x40#7, 0x50#7, 0x54#7, 0x58#7, 0x5C#7, 0x60#7, 0x64#7, 0x68#7,
        0x6C#7, 0x70#7, 0x74#7] := by decide

/-- Settles O38: each read is of the register at its offset, exact or drawn as R247 says of that register. -/
theorem busyReadsDraw : Obligations.BusyReadsDraw := by
  intro e k busy
  refine ⟨busAccess_read_exact (r := .id) rfl e k, busAccess_read_exact (r := .cmd) rfl e k,
    busAccess_read_exact (r := .dataIn) rfl e k, fun n => ?_, ?_, fun off listed => ?_⟩
  · rw [← Words5.get_eq_getD]
    exact busAccess_read_exact (r := .hin n) rfl e k
  · rw [← busy]
    exact busAccess_read_drawn (r := .status) rfl busy k
  · rw [← drawnWord_offsets] at listed
    obtain ⟨r, inMap, rfl⟩ := List.mem_map.mp listed
    obtain ⟨-, drawsWord⟩ := List.mem_filter.mp inMap
    obtain ⟨drawn, other⟩ : r.unspecifiedWhileBusy = true ∧ r ≠ .status := by simpa using drawsWord
    rw [busAccess_read_drawn drawn busy, drawnValue_of_ne_status other]
    rfl

end Sys2Proof.Machine

/-! ## The draw keys of a platform -/

namespace Sys2Proof.Machine

/-- A Host's step draws one unspecified value or none. -/
theorem hostStep_draws (k : Nat) (s : State) : (s.hostStep k).draws = s.draws ∨ (s.hostStep k).draws = s.draws.next := by
  obtain rests | ⟨h, op, rest, -, -, accesses⟩ := hostStep_cases k s
  · exact .inl (congrArg State.draws rests)
  · rw [accesses]
    exact busAccess_draws op.toAccess s.engine s.draws

/-- A step draws one unspecified value or none: only a Host's access draws. -/
theorem step_draws {s t : State} (answers : step s = .next t) : t.draws = s.draws ∨ t.draws = s.draws.next := by
  obtain ⟨p, -, -, performs⟩ | ⟨-, -, rests⟩ | ⟨k, -, accesses⟩ | ⟨-, resets⟩ := step_cases s
  · obtain rfl : s.advance.onEngine (Engine.performed p.cmd) = t := by
      simpa [performs, exec_eq_performed] using answers
    exact .inl rfl
  · obtain rfl : s.advance = t := by simpa [rests] using answers
    exact .inl rfl
  · obtain rfl : s.advance.hostStep k = t := by simpa [accesses] using answers
    exact hostStep_draws k s.advance
  · obtain rfl : s.advance.resetEngine = t := by simpa [resets] using answers
    exact .inl rfl

/-- A key that is kept or used up keeps its name and never counts back. -/
theorem DrawKey.kept_of_same_or_next {k l : DrawKey} (drawn : l = k ∨ l = k.next) :
    l.unit = k.unit ∧ k.count ≤ l.count := by
  obtain rfl | rfl := drawn
  · exact ⟨rfl, le_rfl⟩
  · exact ⟨k.next_unit, Nat.le_succ k.count⟩

/-- The name in a slot's draw keys. -/
def Slot.name (slot : Slot) : Nat := slot.machine.draws.unit

theorem platformWf_iff (p : Platform) :
    platformWf p = true ↔
      (∀ b ∈ p.map Slot.base, b % 0x80 = 0) ∧ (p.map Slot.base).Nodup ∧ (p.map Slot.name).Nodup := by
  rw [platformWf, Bool.and_eq_true, windowsApart_iff, List.forall_mem_map, drawsApart, decide_eq_true_iff, and_assoc]
  rfl

/-- An element replaced by one alike under `f` leaves the list's image under `f`. -/
theorem map_set_of_same {α β : Type} {f : α → β} {l : List α} {k : Nat} {old new : α} (there : l[k]? = some old)
    (same : f new = f old) : (l.set k new).map f = l.map f := by
  obtain ⟨inside, rfl⟩ := List.getElem?_eq_some_iff.mp there
  rw [List.map_set, same, ← List.getElem_map f (h := by simpa using inside), List.set_getElem_self]

/-- A slot replaced by one with its base and its name keeps the platform well formed. -/
theorem platformWf_set {p : Platform} (wf : platformWf p = true) {k : Nat} {slot new : Slot}
    (slotAt : p[k]? = some slot) (base : new.base = slot.base) (name : new.name = slot.name) :
    platformWf (p.set k new) = true := by
  rw [platformWf_iff] at wf ⊢
  rwa [map_set_of_same slotAt base, map_set_of_same slotAt name]

theorem platformReset_bases (bases : List Nat) : (platformReset bases).map Slot.base = bases := by
  rw [platformReset, List.map_map]
  exact List.zipIdx_map_fst 0 bases

/-- After reset a slot's name is its place in the list (log 2). -/
theorem platformReset_names (bases : List Nat) :
    (platformReset bases).map Slot.name = List.range' 0 bases.length := by
  rw [platformReset, List.map_map]
  exact List.zipIdx_map_snd 0 bases

theorem platformWf_reset {bases : List Nat} (distinct : bases.Nodup) (aligned : ∀ b ∈ bases, b % 0x80 = 0) :
    platformWf (platformReset bases) = true := by
  rw [platformWf_iff, platformReset_bases, platformReset_names]
  exact ⟨aligned, distinct, List.nodup_range'⟩

theorem platformWf_step {p : Platform} (wf : platformWf p = true) (k : Nat) :
    ∃ q, platformStep k p = .next q ∧ platformWf q = true := by
  cases slotAt : p[k]? with
  | none => exact ⟨p, platformStep_of_no_slot slotAt, wf⟩
  | some slot =>
    obtain ⟨t, answers⟩ := everyStepAnswersNext slot.machine
    obtain ⟨name, -⟩ := DrawKey.kept_of_same_or_next (step_draws answers)
    exact ⟨_, platformStep_of_slot slotAt answers, platformWf_set wf slotAt rfl name⟩

/-- What an access at an absolute address can leave: the platform as it was, or one slot's own bus access made. -/
theorem platformAccess_cases (addr : Nat) (at_ : BitVec 7 → Access) (p : Platform) :
    (platformAccess addr at_ p).1 = p ∨
    ∃ k slot a, p[k]? = some slot ∧ (platformAccess addr at_ p).1 = p.set k (slot.accessed a) := by
  unfold platformAccess
  split
  next => exact .inl rfl
  next k _ =>
    split
    next => exact .inl rfl
    next slot slotAt => exact .inr ⟨k, slot, at_ (windowOffset slot.base addr), slotAt, rfl⟩

theorem platformWf_access {p : Platform} (wf : platformWf p = true) (addr : Nat) (at_ : BitVec 7 → Access) :
    platformWf (platformAccess addr at_ p).1 = true := by
  obtain same | ⟨k, slot, a, slotAt, accessed⟩ := platformAccess_cases addr at_ p
  · rwa [same]
  · obtain ⟨name, -⟩ := DrawKey.kept_of_same_or_next (busAccess_draws a slot.machine.engine slot.machine.draws)
    rw [accessed]
    exact platformWf_set wf slotAt rfl name

/-- Settles O56: bases and names are distinct at reset, and whatever writes a slot keeps its base and its name. -/
theorem platformKeepsDrawsApart : Obligations.PlatformKeepsDrawsApart :=
  ⟨fun _ _ answers => DrawKey.kept_of_same_or_next (step_draws answers),
    fun _ distinct aligned => platformWf_reset distinct aligned,
    fun _ wf => ⟨platformWf_step wf, fun addr _ _ => ⟨platformWf_access wf addr _, platformWf_access wf addr _⟩⟩⟩

end Sys2Proof.Machine
